-- ==== Sys2Proof/Word.lean ====
section
/-! DEFINITION. The widths of the machine (00_scope.md rules R4, R7): bytes, 16-bit words, 12-bit immediates,
register numbers. All quantities are unsigned. -/

namespace Sys2Proof

/-- A memory byte or the contents of a V register (rules R20, R22). -/
abbrev Byte := BitVec 8

/-- A 16-bit value: `I`, `pc`, a stack slot, an opcode (rules R24 to R26, R70). -/
abbrev Word := BitVec 16

/-- A 12-bit immediate `NNN` (rule R71). -/
abbrev Addr12 := BitVec 12

/-- A register number, 0 to 15 (rule R22). -/
abbrev RegIx := Fin 16

/-- A sprite height `N`, 0 to 15 (rule R73). -/
abbrev Height := Fin 16

/-- A key index, 0 to 15 (rule R30). -/
abbrev KeyIx := Fin 16

end Sys2Proof
end

