-- ==== Sys2Proof/Config.lean ====
section
/-! DEFINITION. What is fixed for one machine: the sizes of 00_scope.md rule R4, the quirk parameters of rule R5, and the
free value that the spec leaves to the random source (41_alu.md rule R132). -/

namespace Sys2Proof

/-! The other sizes of rule R4 stand as numerals where they are used: 4096 bytes of memory, 64 columns and 32 rows of pixels, 12
return addresses, 16 registers, 16 keys. -/

/-- `ENTRY` (rule R4). -/
abbrev entryPoint : Nat := 0x200

/-- `ROM_MAX` (rule R4). -/
abbrev romMax : Nat := 3584

/-- The size of the font table (rule R4). -/
abbrev fontSize : Nat := 80

/-- `SHIFT_SRC` (rule R5): the source register of 8XY6 and 8XYE. -/
inductive ShiftSrc where
  | vy
  | vx
  deriving DecidableEq, Repr

/-- `LOGIC_VF` (rule R5): whether 8XY1, 8XY2, 8XY3 leave VF alone or clear it. -/
inductive LogicVf where
  | unaffected
  | reset
  deriving DecidableEq, Repr

/-- The parameters of rule R5 that change what an instruction computes. -/
structure Config where
  shiftSrc : ShiftSrc
  logicVf : LogicVf
  deriving DecidableEq, Repr

/-- The default column of rule R5. -/
def Config.default : Config := ⟨.vy, .unaffected⟩

/-- DESIGN CHOICE (log entry 4). The byte the random source answers to the `n`-th draw (rule R132: a free draw under no law).
It has no body: nothing can be proved of its value. -/
opaque Config.randByte : Nat → Byte

end Sys2Proof
end

