-- ==== Sys2Proof/Syntax.lean ====
section
/-! DEFINITION. The instructions: one constructor per row of spec/opcode_table.json, in the table's order
(30_encoding.md rule R76; the default row is rule R78). -/

namespace Sys2Proof

inductive Instr where
  /-- 00E0, clear the display (rule R150). -/
  | cls
  /-- 00EE, return (rule R101). -/
  | ret
  /-- 1NNN, jump (rule R102). -/
  | jp (nnn : Addr12)
  /-- 2NNN, call (rule R103). -/
  | call (nnn : Addr12)
  /-- 3XNN, skip if VX = NN (rule R105). -/
  | seImm (x : RegIx) (nn : Byte)
  /-- 4XNN, skip if VX differs from NN (rule R106). -/
  | sneImm (x : RegIx) (nn : Byte)
  /-- 5XY0, skip if VX = VY (rule R107). -/
  | seReg (x y : RegIx)
  /-- 6XNN, load immediate (rule R120). -/
  | ldImm (x : RegIx) (nn : Byte)
  /-- 7XNN, add immediate, no flag (rule R121). -/
  | addImm (x : RegIx) (nn : Byte)
  /-- 8XY0, copy (rule R122). -/
  | ldReg (x y : RegIx)
  /-- 8XY1, bitwise OR (rule R123). -/
  | orReg (x y : RegIx)
  /-- 8XY2, bitwise AND (rule R124). -/
  | andReg (x y : RegIx)
  /-- 8XY3, bitwise exclusive OR (rule R125). -/
  | xorReg (x y : RegIx)
  /-- 8XY4, add with carry flag (rule R126). -/
  | addReg (x y : RegIx)
  /-- 8XY5, subtract VY from VX (rule R127). -/
  | sub (x y : RegIx)
  /-- 8XY6, shift right by one (rule R129). -/
  | shr (x y : RegIx)
  /-- 8XY7, subtract VX from VY (rule R128). -/
  | subn (x y : RegIx)
  /-- 8XYE, shift left by one (rule R131). -/
  | shl (x y : RegIx)
  /-- 9XY0, skip if VX differs from VY (rule R108). -/
  | sneReg (x y : RegIx)
  /-- ANNN, load I (rule R140). -/
  | ldI (nnn : Addr12)
  /-- BNNN, jump to NNN plus V0 (rule R110). -/
  | jpV0 (nnn : Addr12)
  /-- CXNN, masked random byte (rule R132). -/
  | rnd (x : RegIx) (nn : Byte)
  /-- DXYN, draw a sprite (rule R151). -/
  | drw (x y : RegIx) (n : Height)
  /-- EX9E, skip if key VX is pressed (rule R160). -/
  | skp (x : RegIx)
  /-- EXA1, skip if key VX is not pressed (rule R161). -/
  | sknp (x : RegIx)
  /-- FX07, read the delay timer (rule R162). -/
  | ldVxDt (x : RegIx)
  /-- FX0A, wait for a key (rule R163). -/
  | ldVxK (x : RegIx)
  /-- FX15, set the delay timer (rule R164). -/
  | ldDtVx (x : RegIx)
  /-- FX18, set the sound timer (rule R165). -/
  | ldStVx (x : RegIx)
  /-- FX1E, add VX to I (rule R141). -/
  | addI (x : RegIx)
  /-- FX29, point I at a glyph (rule R142). -/
  | ldF (x : RegIx)
  /-- FX33, store decimal digits (rule R143). -/
  | ldB (x : RegIx)
  /-- FX55, store V0 to VX (rule R144). -/
  | ldMemVx (x : RegIx)
  /-- FX65, load V0 to VX (rule R145). -/
  | ldVxMem (x : RegIx)
  /-- Any other word, a no-op (rule R78); the word is kept because the event `unrec(op, a)` carries it (rule R186). -/
  | unrec (op : Word)
  deriving DecidableEq, Repr

end Sys2Proof
end

