-- ==== Sys2Proof/WellFormed.lean ====
section
/-! DEFINITION. Well-formed instructions. Operand ranges are in the types; the one check left is that the word of
an `unrec` is a word that no pattern takes. It is written from the family list of 30_encoding.md rule R79, not from the
masks the decoder uses (rule R76), so that the two can be proved to agree. -/

namespace Sys2Proof

/-- Rule R79: the words that match no pattern, family by family (the family is the top nibble). -/
def unrecognizedWord (w : Word) : Bool :=
  match w.toNat / 4096 with
  | 0 => w.toNat != 0x00E0 && w.toNat != 0x00EE
  | 5 => w.toNat % 16 != 0
  | 8 => [8, 9, 10, 11, 12, 13, 15].contains (w.toNat % 16)
  | 9 => w.toNat % 16 != 0
  | 14 => !([0x9E, 0xA1].contains (w.toNat % 256))
  | 15 => !([0x07, 0x0A, 0x15, 0x18, 0x1E, 0x29, 0x33, 0x55, 0x65].contains (w.toNat % 256))
  | _ => false

/-- An instruction that some word encodes. -/
def Instr.wf : Instr → Bool
  | .cls | .ret | .jp _ | .call _ | .seImm _ _ | .sneImm _ _ | .seReg _ _ => true
  | .ldImm _ _ | .addImm _ _ | .ldReg _ _ | .orReg _ _ | .andReg _ _ | .xorReg _ _ => true
  | .addReg _ _ | .sub _ _ | .shr _ _ | .subn _ _ | .shl _ _ | .sneReg _ _ => true
  | .ldI _ | .jpV0 _ | .rnd _ _ | .drw _ _ _ | .skp _ | .sknp _ => true
  | .ldVxDt _ | .ldVxK _ | .ldDtVx _ | .ldStVx _ | .addI _ | .ldF _ | .ldB _ | .ldMemVx _ | .ldVxMem _ => true
  | .unrec op => unrecognizedWord op

end Sys2Proof
end

