-- ==== Sys2Proof/Decode.lean ====
section
/-! DEFINITION. The decoder (30_encoding.md rules R70 to R79) and, after it, the encoder, both from the encoding tables of
that file. -/

namespace Sys2Proof

/-! ### Fields (rule R71) -/

/-- `OP`, bits 15 to 12. -/
def opField (w : Word) : BitVec 4 := w.extractLsb' 12 4

/-- `X`, bits 11 to 8. -/
def xField (w : Word) : RegIx := (w.extractLsb' 8 4).toFin

/-- `Y`, bits 7 to 4. -/
def yField (w : Word) : RegIx := (w.extractLsb' 4 4).toFin

/-- `N`, bits 3 to 0. -/
def nField (w : Word) : Height := (w.extractLsb' 0 4).toFin

/-- `NN`, bits 7 to 0. -/
def nnField (w : Word) : Byte := w.extractLsb' 0 8

/-- `NNN`, bits 11 to 0. -/
def nnnField (w : Word) : Addr12 := w.extractLsb' 0 12

/-! ### The opcode map (rule R76) -/

/-- One row of the opcode map: a word `op` selects it iff `op and mask = pattern`. -/
structure OpcodeRow where
  mask : Word
  pattern : Word
  build : Word → Instr

/-- The selection test of rule R76. -/
def OpcodeRow.selects (r : OpcodeRow) (w : Word) : Bool := w &&& r.mask == r.pattern

/-- Families 0 to 7 (rule R76 rows 1 to 9). -/
def rowsZeroToSeven : List OpcodeRow := [
  ⟨0xFFFF, 0x00E0, fun _ => .cls⟩,
  ⟨0xFFFF, 0x00EE, fun _ => .ret⟩,
  ⟨0xF000, 0x1000, fun w => .jp (nnnField w)⟩,
  ⟨0xF000, 0x2000, fun w => .call (nnnField w)⟩,
  ⟨0xF000, 0x3000, fun w => .seImm (xField w) (nnField w)⟩,
  ⟨0xF000, 0x4000, fun w => .sneImm (xField w) (nnField w)⟩,
  ⟨0xF00F, 0x5000, fun w => .seReg (xField w) (yField w)⟩,
  ⟨0xF000, 0x6000, fun w => .ldImm (xField w) (nnField w)⟩,
  ⟨0xF000, 0x7000, fun w => .addImm (xField w) (nnField w)⟩]

/-- Family 8 (rule R76 rows 10 to 18). -/
def rowsEight : List OpcodeRow := [
  ⟨0xF00F, 0x8000, fun w => .ldReg (xField w) (yField w)⟩,
  ⟨0xF00F, 0x8001, fun w => .orReg (xField w) (yField w)⟩,
  ⟨0xF00F, 0x8002, fun w => .andReg (xField w) (yField w)⟩,
  ⟨0xF00F, 0x8003, fun w => .xorReg (xField w) (yField w)⟩,
  ⟨0xF00F, 0x8004, fun w => .addReg (xField w) (yField w)⟩,
  ⟨0xF00F, 0x8005, fun w => .sub (xField w) (yField w)⟩,
  ⟨0xF00F, 0x8006, fun w => .shr (xField w) (yField w)⟩,
  ⟨0xF00F, 0x8007, fun w => .subn (xField w) (yField w)⟩,
  ⟨0xF00F, 0x800E, fun w => .shl (xField w) (yField w)⟩]

/-- Families 9 to D (rule R76 rows 19 to 23). -/
def rowsNineToD : List OpcodeRow := [
  ⟨0xF00F, 0x9000, fun w => .sneReg (xField w) (yField w)⟩,
  ⟨0xF000, 0xA000, fun w => .ldI (nnnField w)⟩,
  ⟨0xF000, 0xB000, fun w => .jpV0 (nnnField w)⟩,
  ⟨0xF000, 0xC000, fun w => .rnd (xField w) (nnField w)⟩,
  ⟨0xF000, 0xD000, fun w => .drw (xField w) (yField w) (nField w)⟩]

/-- Families E and F (rule R76 rows 24 to 34). -/
def rowsEAndF : List OpcodeRow := [
  ⟨0xF0FF, 0xE09E, fun w => .skp (xField w)⟩,
  ⟨0xF0FF, 0xE0A1, fun w => .sknp (xField w)⟩,
  ⟨0xF0FF, 0xF007, fun w => .ldVxDt (xField w)⟩,
  ⟨0xF0FF, 0xF00A, fun w => .ldVxK (xField w)⟩,
  ⟨0xF0FF, 0xF015, fun w => .ldDtVx (xField w)⟩,
  ⟨0xF0FF, 0xF018, fun w => .ldStVx (xField w)⟩,
  ⟨0xF0FF, 0xF01E, fun w => .addI (xField w)⟩,
  ⟨0xF0FF, 0xF029, fun w => .ldF (xField w)⟩,
  ⟨0xF0FF, 0xF033, fun w => .ldB (xField w)⟩,
  ⟨0xF0FF, 0xF055, fun w => .ldMemVx (xField w)⟩,
  ⟨0xF0FF, 0xF065, fun w => .ldVxMem (xField w)⟩]

/-- The complete opcode map, 34 rows (rule R76). -/
def opcodeTable : List OpcodeRow := rowsZeroToSeven ++ rowsEight ++ rowsNineToD ++ rowsEAndF

/-- The decode function: the one row the word selects, or `UNREC` (rules R75, R77, R78). Total on every word (rule R71). -/
def decodeWord (w : Word) : Instr :=
  match opcodeTable.find? (fun r => r.selects w) with
  | some r => r.build w
  | none => .unrec w

/-! ### Bytes (rules R52, R70) -/

/-- The opcode of two fetched bytes: the byte at the lower address is the high byte (rule R52). -/
def wordOfBytes (b0 b1 : Byte) : Word := b0 ++ b1

/-- Why a sequence of bytes is no instruction. -/
inductive DecodeError where
  /-- Fewer than two bytes are there (an instruction is exactly two bytes, rule R70). -/
  | truncated
  deriving DecidableEq, Repr

/-- The decoder on bytes: the instruction and the bytes after it. -/
def decodeBytes : List Byte → Except DecodeError (Instr × List Byte)
  | b0 :: b1 :: rest => .ok (decodeWord (wordOfBytes b0 b1), rest)
  | [_] => .error .truncated
  | [] => .error .truncated

/-! ### The encoder, format by format (rule R72) -/

/-- A register number or a height as four bits. -/
def nibble (k : Fin 16) : BitVec 4 := BitVec.ofNat 4 k.val

/-- Format `NNN`. -/
def fmtNNN (f : BitVec 4) (nnn : Addr12) : Word := f ++ nnn

/-- Format `XNN`. -/
def fmtXNN (f : BitVec 4) (x : RegIx) (nn : Byte) : Word := f ++ nibble x ++ nn

/-- Formats `XY` (the last nibble a selector) and `XYN` (the last nibble the height). -/
def fmtXYN (f : BitVec 4) (x y : RegIx) (n : BitVec 4) : Word := f ++ nibble x ++ nibble y ++ n

/-- Format `X` (the low byte a selector). -/
def fmtX (f : BitVec 4) (x : RegIx) (s : Byte) : Word := f ++ nibble x ++ s

/-- The word of an instruction (rules R72, R76). -/
def encode : Instr → Word
  | .cls => 0x00E0
  | .ret => 0x00EE
  | .jp nnn => fmtNNN 0x1 nnn
  | .call nnn => fmtNNN 0x2 nnn
  | .seImm x nn => fmtXNN 0x3 x nn
  | .sneImm x nn => fmtXNN 0x4 x nn
  | .seReg x y => fmtXYN 0x5 x y 0x0
  | .ldImm x nn => fmtXNN 0x6 x nn
  | .addImm x nn => fmtXNN 0x7 x nn
  | .ldReg x y => fmtXYN 0x8 x y 0x0
  | .orReg x y => fmtXYN 0x8 x y 0x1
  | .andReg x y => fmtXYN 0x8 x y 0x2
  | .xorReg x y => fmtXYN 0x8 x y 0x3
  | .addReg x y => fmtXYN 0x8 x y 0x4
  | .sub x y => fmtXYN 0x8 x y 0x5
  | .shr x y => fmtXYN 0x8 x y 0x6
  | .subn x y => fmtXYN 0x8 x y 0x7
  | .shl x y => fmtXYN 0x8 x y 0xE
  | .sneReg x y => fmtXYN 0x9 x y 0x0
  | .ldI nnn => fmtNNN 0xA nnn
  | .jpV0 nnn => fmtNNN 0xB nnn
  | .rnd x nn => fmtXNN 0xC x nn
  | .drw x y n => fmtXYN 0xD x y (nibble n)
  | .skp x => fmtX 0xE x 0x9E
  | .sknp x => fmtX 0xE x 0xA1
  | .ldVxDt x => fmtX 0xF x 0x07
  | .ldVxK x => fmtX 0xF x 0x0A
  | .ldDtVx x => fmtX 0xF x 0x15
  | .ldStVx x => fmtX 0xF x 0x18
  | .addI x => fmtX 0xF x 0x1E
  | .ldF x => fmtX 0xF x 0x29
  | .ldB x => fmtX 0xF x 0x33
  | .ldMemVx x => fmtX 0xF x 0x55
  | .ldVxMem x => fmtX 0xF x 0x65
  | .unrec op => op

/-- The high byte of a word, the one stored at the lower address (rule R52). -/
def highByte (w : Word) : Byte := w.extractLsb' 8 8

/-- The low byte of a word, the one stored at the higher address (rule R52). -/
def lowByte (w : Word) : Byte := w.extractLsb' 0 8

/-- A word as memory holds it, high byte first (rules R52, R70). -/
def bytesOfWord (w : Word) : List Byte := [highByte w, lowByte w]

/-- An instruction as memory holds it. -/
def encodeBytes (i : Instr) : List Byte := bytesOfWord (encode i)

/-- What the decoder reads from the instruction whose bits are `w` as spec/opcode_table.json numbers them: bit 0 is the
least significant bit of the one 16-bit word, and the word lies in memory high byte first. -/
def decodeTableWord (nbits w : Nat) : Option Instr :=
  if nbits ≤ 16 && w < 65536 then
    match decodeBytes (bytesOfWord (BitVec.ofNat 16 w)) with
    | .ok (i, _) => some i
    | .error _ => none
  else none

end Sys2Proof
end

