-- ==== Sys2Proof/Machine/State.lean ====
section
/-! DEFINITION. The machine's state (10_state.md rules R20 to R33), the reset state (rule R36), and the reasons a step can
stop. -/

namespace Sys2Proof.Machine

/-- Rule R20. Cells in ONE canonical form (`Memory.wf`): addresses strictly rising, no cell equal to what an unlisted
address reads as (`Memory.unlisted`). -/
abbrev Memory := List Host.Cell

/-- Rule R21: row y, column x, both from 0; true is on. -/
abbrev Display := Vector (Vector Bool 64) 32

/-- Rule R31. -/
inductive RunState where
  | running
  | paused
  | halted
  deriving DecidableEq, Repr

/-- The values of the `FAULT` register (rule R32, 60_exceptions.md rule R170). -/
inductive FaultCode where
  | none
  | stackOverflow
  | stackUnderflow
  | memOutOfRange
  | keyIndexOutOfRange
  deriving DecidableEq, Repr

/-- The actions of the input agent (60_exceptions.md rules R181, R182). -/
inductive Input where
  | keyDown (k : KeyIx)
  | keyUp (k : KeyIx)
  | pauseToggle
  | quit
  deriving DecidableEq, Repr

/-- The actions of the three agents that act (00_scope.md rule R6), and the look of the Display Sink at the display, which writes
nothing (60_exceptions.md rule R184; log entry 25). -/
inductive Action where
  | step
  | tick
  | input (e : Input)
  | observe
  deriving DecidableEq, Repr

/-- `CYCLES_PER_TICK`: a positive integer (00_scope.md rule R5; the number is OPEN). -/
abbrev CyclesPerTick := { n : Nat // 0 < n }

/-- The documented schedule (70_reset_and_hazards.md rule R202), when a run follows it (log entry 25). -/
structure Schedule where
  /-- `CYCLES_PER_TICK` (00_scope.md rule R5). -/
  cyclesPerTick : CyclesPerTick
  /-- The input events pending at the start of each coming frame, the next frame first; none are pending after the last. -/
  pending : List (List Input)
  deriving DecidableEq, Repr

/-- Everything the spec gives the machine, and four fields of the model's own: `cfg`, `draws`, `agenda`, `schedule`. -/
structure State where
  /-- `memory` (rule R20). -/
  mem : Memory
  /-- `display` (rule R21). -/
  display : Display
  /-- `V[0]` to `V[15]`; `VF` is `V[15]` (rules R22, R23). -/
  v : Vector Byte 16
  /-- `I` (rule R24). -/
  i : Word
  /-- `pc` (rule R25). -/
  pc : Word
  /-- `stack` (rule R26). -/
  stack : Vector Word 12
  /-- `SP`, 0 to 12 (rule R27). -/
  sp : Fin 13
  /-- `DT` (rule R28). -/
  dt : Byte
  /-- `ST` (rule R29). -/
  st : Byte
  /-- `keypad`, bit k is key k (rule R30). -/
  keypad : BitVec 16
  /-- `RUN` (rule R31). -/
  run : RunState
  /-- `FAULT` (rule R32). -/
  fault : FaultCode
  /-- `WAIT` (rule R33). -/
  wait : Bool
  /-- `KEY_PREV` (rule R33). -/
  keyPrev : BitVec 16
  /-- The model's own: the parameters of rule R5 (log entry 5). No action writes it. -/
  cfg : Config
  /-- The model's own: how many random bytes have been drawn (log entry 4). -/
  draws : Nat
  /-- The model's own: the actions that come next, in order; when it is empty the step agent acts, or the next frame of the
  schedule begins (log entries 2, 25). -/
  agenda : List Action
  /-- The model's own: the documented schedule, when the run follows it (log entry 25). -/
  schedule : Option Schedule
  deriving DecidableEq, Repr

/-- Rule R36 with the default `FONT` and an empty `ROM` (memory then lists nothing), the default parameters of rule R5, and
the model's own fields at their DESIGN CHOICE values (log entries 2, 4, 25). -/
def State.reset : State where
  mem := []
  display := Vector.replicate 32 (Vector.replicate 64 false)
  v := Vector.replicate 16 0
  i := 0
  pc := 0x200
  stack := Vector.replicate 12 0
  sp := 0
  dt := 0
  st := 0
  keypad := 0
  run := .running
  fault := .none
  wait := false
  keyPrev := 0
  cfg := Config.default
  draws := 0
  agenda := []
  schedule := none

/-- Why the machine stops. A fault of the spec (rule R170) is not one of these: its entry is a next state (rule R176). -/
inductive Fault where
  /-- Raised by `step` when the action whose turn it is, is not enabled in this run state (10_state.md rule R31,
  93_implementation_defined.md U20: stuck). Safe: the hardware does nothing there either (log entry 3). -/
  | notEnabled (a : Action)
  deriving DecidableEq, Repr

/-- Why the model gives an instruction no meaning. -/
inductive Refusal where
  /-- Raised by an arm of `exec` whose instruction has no meaning yet; no arm does. Safe: nothing is claimed of it. -/
  | notModelled (mnemonic : String)
  deriving DecidableEq, Repr

/-- What an action answers. -/
abbrev Result := Host.Outcome State Fault Refusal

end Sys2Proof.Machine
end

