-- ==== Sys2Proof/Machine/Ops.lean ====
section
/-! DEFINITION. The shared operations over the state: the primitives of 00_scope.md rule R8, with their checks, and fault
entry (60_exceptions.md rule R176). The machine has no return from a fault (rule R179). -/

namespace Sys2Proof.Machine

/-! ### Memory (rules R20, R50 to R57) -/

/-- What an address that no cell lists reads as: the reset contents with the default `FONT` and no `ROM` (rule R36;
log entry 7). -/
def Memory.unlisted (a : Nat) : Byte := defaultFont.getD a 0

/-- The byte at an address. -/
def Memory.read : Memory → Nat → Byte
  | [], a => Memory.unlisted a
  | (k, b) :: t, a => if k = a then b else Memory.read t a

/-- Put a byte at an address, keeping the canonical form. -/
def Memory.write : Memory → Nat → Byte → Memory
  | [], a, b => if b = Memory.unlisted a then [] else [(a, b)]
  | (k, c) :: t, a, b =>
    if a < k then
      if b = Memory.unlisted a then (k, c) :: t else (a, b) :: (k, c) :: t
    else if a = k then
      if b = Memory.unlisted a then t else (a, b) :: t
    else (k, c) :: Memory.write t a b

/-- Bytes in ascending address order (rule R52). -/
def Memory.writeBytes : Memory → Nat → List Byte → Memory
  | m, _, [] => m
  | m, a, b :: bs => Memory.writeBytes (Memory.write m a b) (a + 1) bs

/-- `n` bytes in ascending address order (rule R52). -/
def Memory.readBytes (m : Memory) : Nat → Nat → List Byte
  | _, 0 => []
  | a, n + 1 => Memory.read m a :: Memory.readBytes m (a + 1) n

/-- The canonical form from an address on: addresses rise, lie inside the machine's 4096 bytes, and no cell repeats what is
unlisted. -/
def Memory.wfFrom : Nat → Memory → Bool
  | _, [] => true
  | lo, (k, b) :: t => decide (lo ≤ k) && decide (k < 4096) && b != Memory.unlisted k && Memory.wfFrom (k + 1) t

/-- The canonical form. -/
def Memory.wf (m : Memory) : Bool := Memory.wfFrom 0 m

/-- Rules R55, R56: `n` bytes from `base` all lie at addresses 0 to 4095; the sum is not reduced; an access of no byte makes
no check. -/
def accessOk (base n : Nat) : Bool := n == 0 || decide (base + n ≤ 4096)

/-- The byte `MemRead(a, 1)` (rule R8). -/
def State.readMem (s : State) (a : Nat) : Byte := s.mem.read a

/-- The opcode at `pc`, big-endian (rule R52). -/
def State.fetchWord (s : State) : Word := wordOfBytes (s.readMem s.pc.toNat) (s.readMem (s.pc.toNat + 1))

/-- Store bytes from an address on (rule R8, `MemWrite`). -/
def State.storeBytes (a : Nat) (bs : List Byte) (s : State) : State := { s with mem := s.mem.writeBytes a bs }

/-! ### Registers (rules R22 to R25) -/

/-- `V[i]`. -/
def State.readV (s : State) (x : RegIx) : Byte := s.v[x]

/-- `V[i] <- v`. -/
def State.writeV (x : RegIx) (b : Byte) (s : State) : State := { s with v := s.v.set x b }

/-- The register that holds the flag (rule R23). -/
abbrev vf : RegIx := 15

/-- A result and then its flag: the flag is written last (rule R23). -/
def State.writeFlagged (x : RegIx) (r f : Byte) (s : State) : State := (s.writeV x r).writeV vf f

/-- Put bytes into consecutive registers from number `j` on. -/
def loadInto : Nat → List Byte → Vector Byte 16 → Vector Byte 16
  | _, [], v => v
  | j, b :: bs, v => loadInto (j + 1) bs (v.setIfInBounds j b)

/-- `V[0]`, `V[1]`, ... get the bytes (rule R145). -/
def State.loadRegs (bs : List Byte) (s : State) : State := { s with v := loadInto 0 bs s.v }

/-- `V[0]` to `V[X]` (rule R144). -/
def State.regsThrough (s : State) (x : RegIx) : List Byte := s.v.toList.take (x.val + 1)

/-- `I <- v`. -/
def State.setI (w : Word) (s : State) : State := { s with i := w }

/-- The advance of `pc` before the body (rule R100). -/
def State.advance (s : State) : State := { s with pc := s.pc + 2 }

/-- `pc <- target`. -/
def State.jumpTo (w : Word) (s : State) : State := { s with pc := w }

/-- `skip` under a condition, on the already advanced `pc` (rule R104). -/
def State.skipIf (c : Bool) (s : State) : State := { s with pc := if c then s.pc + 2 else s.pc }

/-! ### The return stack (rules R26, R27) -/

/-- Push a return address; none when twelve are stacked. -/
def State.push (w : Word) (s : State) : Option State :=
  if h : s.sp.val < 12 then
    some { s with stack := s.stack.set s.sp.val w h, sp := ⟨s.sp.val + 1, Nat.succ_lt_succ h⟩ }
  else none

/-- Pop a return address; none when the stack is empty. The slot keeps its content (log entry 12). -/
def State.pop (s : State) : Option (Word × State) :=
  if h : 0 < s.sp.val then
    some (s.stack[s.sp.val - 1]'(by have := s.sp.isLt; omega),
      { s with sp := ⟨s.sp.val - 1, by have := s.sp.isLt; omega⟩ })
  else none

/-! ### The display (rules R21, R150, R151) -/

/-- The blank display. -/
def blankDisplay : Display := Vector.replicate 32 (Vector.replicate 64 false)

/-- `display[y][x]`; off outside the display. -/
def pixel (d : Display) (y x : Nat) : Bool :=
  if h : y < 32 ∧ x < 64 then (d[y]'h.1)[x]'h.2 else false

/-- `display[y][x] <- display[y][x] xor b`; nothing outside the display. -/
def xorPixel (y x : Nat) (b : Bool) (d : Display) : Display :=
  if h : y < 32 ∧ x < 64 then
    d.set y ((d[y]'h.1).set x ((d[y]'h.1)[x]'h.2 ^^ b) h.2) h.1
  else d

/-- The bits of one sprite row, drawn from column `x` on and stopped at the right edge; the Bool is the collision so far
(rule R151). -/
def drawBits (y : Nat) : Nat → List Bool → Display × Bool → Display × Bool
  | _, [], acc => acc
  | x, b :: bs, (d, f) =>
    if 64 ≤ x then (d, f)
    else drawBits y (x + 1) bs (xorPixel y x b d, f || (b && pixel d y x))

/-- The bits of a sprite byte, most significant first (rule R151). -/
def spriteBits (b : Byte) : List Bool :=
  [b.getLsbD 7, b.getLsbD 6, b.getLsbD 5, b.getLsbD 4, b.getLsbD 3, b.getLsbD 2, b.getLsbD 1, b.getLsbD 0]

/-- The rows of a sprite, from row `y` on, each from column `x0` on (rule R151). -/
def drawRows (x0 : Nat) : Nat → List Byte → Display × Bool → Display × Bool
  | _, [], acc => acc
  | y, b :: bs, acc => drawRows x0 (y + 1) bs (drawBits y x0 (spriteBits b) acc)

/-- The display becomes `d`. -/
def State.setDisplay (d : Display) (s : State) : State := { s with display := d }

/-! ### Timers, keypad, key wait, random source (rules R28 to R33, R132) -/

/-- `DT <- b`. -/
def State.setDt (b : Byte) (s : State) : State := { s with dt := b }

/-- `ST <- b`. -/
def State.setSt (b : Byte) (s : State) : State := { s with st := b }

/-- `keypad <- k`. -/
def State.setKeypad (k : BitVec 16) (s : State) : State := { s with keypad := k }

/-- `RUN <- r`. -/
def State.setRun (r : RunState) (s : State) : State := { s with run := r }

/-- `WAIT <- w; KEY_PREV <- keypad` (rule R163). -/
def State.lookAtKeys (w : Bool) (s : State) : State := { s with wait := w, keyPrev := s.keypad }

/-- The next byte of the random source (log entry 4). -/
def State.randomByte (s : State) : Byte := Config.randByte s.draws

/-- That byte is used up. -/
def State.drawn (s : State) : State := { s with draws := s.draws + 1 }

/-! ### Fault entry (rules R8, R176) -/

/-- `raise c`: the state before the step with `FAULT <- c` and `RUN <- Halted`, and nothing else changed (log entry 1). -/
def State.halted (c : FaultCode) (s : State) : State := { s with fault := c, run := .halted }

/-- Fault entry as the outcome of a step: a next state (rule R9). -/
def raise (c : FaultCode) (s : State) : Result := .next (s.halted c)

end Sys2Proof.Machine
end

