-- ==== Sys2Proof/Machine/Operands.lean ====
section
/-! DEFINITION. The operands the instructions compute from registers and fields. All values are unsigned (rules R7, R73). -/

namespace Sys2Proof.Machine

/-- `zext_16(NNN)` (rule R73). -/
def absoluteTarget (nnn : Addr12) : Word := nnn.setWidth 16

/-- `zext_16(V[0]) + zext_16(NNN)` (rule R110). -/
def indexedTarget (v0 : Byte) (nnn : Addr12) : Word := v0.setWidth 16 + nnn.setWidth 16

/-- `(I + zext_16(V[X])) mod 65536` (rule R141). -/
def indexPlus (i : Word) (b : Byte) : Word := i + b.setWidth 16

/-- `zext_16(V[X]) * 5` (rule R142). -/
def glyphAddress (b : Byte) : Word := b.setWidth 16 * 5

/-- `I` after a block move of registers 0 to X (rules R144, R145). -/
def indexAfterBlock (i : Word) (x : RegIx) : Word := i + BitVec.ofNat 16 (x.val + 1)

/-- Hundreds, tens, ones (rule R143). -/
def decimalDigits (b : Byte) : List Byte :=
  [BitVec.ofNat 8 (b.toNat / 100), BitVec.ofNat 8 (b.toNat / 10 % 10), BitVec.ofNat 8 (b.toNat % 10)]

/-- The source of a shift under `SHIFT_SRC` (rules R129, R131). -/
def shiftSource (x y : RegIx) (s : State) : Byte :=
  match s.cfg.shiftSrc with
  | .vy => s.readV y
  | .vx => s.readV x

/-- The key a register names; none above 15 (rules R160, R161). -/
def keyNamed (b : Byte) : Option KeyIx := if h : b.toNat < 16 then some ⟨b.toNat, h⟩ else none

/-- `keypad[k]` (rule R30). -/
def State.keyPressed (s : State) (k : KeyIx) : Bool := s.keypad.getLsbD k.val

/-- The keys that are down now and were not at the last look (rule R163). -/
def State.risingKeys (s : State) : BitVec 16 := s.keypad &&& ~~~s.keyPrev

/-- The least index whose bit is set (rule R163). -/
def leastKey (r : BitVec 16) : Option KeyIx := (List.finRange 16).find? (fun k => r.getLsbD k.val)

/-- The first column of a sprite: only the origin wraps (rule R151). -/
def spriteColumn (b : Byte) : Nat := b.toNat % 64

/-- The first row of a sprite: only the origin wraps (rule R151). -/
def spriteRow (b : Byte) : Nat := b.toNat % 32

/-- The rows that are drawn: those above the bottom edge (rule R151). -/
def spriteRows (n : Height) (y0 : Nat) : Nat := min n.val (32 - y0)

end Sys2Proof.Machine
end

