-- ==== Sys2Proof/Machine/Flags.lean ====
section
/-! DEFINITION. The flag computations: every flag is 0x00 or 0x01 and comes from the operands as they were before the
instruction (10_state.md rule R23, 41_alu.md rule R130). -/

namespace Sys2Proof.Machine

/-- A flag as VF holds it (rule R23). -/
def flagByte (b : Bool) : Byte := if b then 1 else 0

/-- 8XY4: carry out of bit 7 (rule R126). -/
def carryFlag (a b : Byte) : Byte := flagByte (decide (a.toNat + b.toNat > 255))

/-- 8XY5 (`a - b`) and 8XY7 (the operands exchanged): 1 when no borrow (rules R127, R128). -/
def noBorrowFlag (a b : Byte) : Byte := flagByte (decide (b.toNat ≤ a.toNat))

/-- 8XY6: the bit shifted out at the low end (rule R129). -/
def lowBitOut (s : Byte) : Byte := flagByte (s.getLsbD 0)

/-- 8XYE: the bit shifted out at the high end (rule R131). -/
def highBitOut (s : Byte) : Byte := flagByte (s.getLsbD 7)

/-- 8XY1, 8XY2, 8XY3: the result, and VF cleared after it when `LOGIC_VF = reset` (rules R123 to R125). -/
def State.writeLogic (x : RegIx) (r : Byte) (s : State) : State :=
  match s.cfg.logicVf with
  | .unaffected => s.writeV x r
  | .reset => s.writeFlagged x r 0

end Sys2Proof.Machine
end

