-- ==== Sys2Proof/Machine/Alu.lean ====
section
/-! DEFINITION. Register load, arithmetic, logic, shift, random (41_alu.md). None of these can fault. -/

namespace Sys2Proof.Machine

/-- 6XNN (rule R120). -/
def execLdImm (x : RegIx) (nn : Byte) (s : State) : Result := .next (s.advance.writeV x nn)

/-- 7XNN (rule R121): no flag. -/
def execAddImm (x : RegIx) (nn : Byte) (s : State) : Result := .next (s.advance.writeV x (s.readV x + nn))

/-- 8XY0 (rule R122). -/
def execLdReg (x y : RegIx) (s : State) : Result := .next (s.advance.writeV x (s.readV y))

/-- 8XY1 (rule R123). -/
def execOrReg (x y : RegIx) (s : State) : Result := .next (s.advance.writeLogic x (s.readV x ||| s.readV y))

/-- 8XY2 (rule R124). -/
def execAndReg (x y : RegIx) (s : State) : Result := .next (s.advance.writeLogic x (s.readV x &&& s.readV y))

/-- 8XY3 (rule R125). -/
def execXorReg (x y : RegIx) (s : State) : Result := .next (s.advance.writeLogic x (s.readV x ^^^ s.readV y))

/-- 8XY4 (rule R126). -/
def execAddReg (x y : RegIx) (s : State) : Result :=
  .next (s.advance.writeFlagged x (s.readV x + s.readV y) (carryFlag (s.readV x) (s.readV y)))

/-- 8XY5 (rule R127). -/
def execSub (x y : RegIx) (s : State) : Result :=
  .next (s.advance.writeFlagged x (s.readV x - s.readV y) (noBorrowFlag (s.readV x) (s.readV y)))

/-- 8XY7 (rule R128). -/
def execSubn (x y : RegIx) (s : State) : Result :=
  .next (s.advance.writeFlagged x (s.readV y - s.readV x) (noBorrowFlag (s.readV y) (s.readV x)))

/-- 8XY6 (rule R129). -/
def execShr (x y : RegIx) (s : State) : Result :=
  .next (s.advance.writeFlagged x (shiftSource x y s >>> 1) (lowBitOut (shiftSource x y s)))

/-- 8XYE (rule R131). -/
def execShl (x y : RegIx) (s : State) : Result :=
  .next (s.advance.writeFlagged x (shiftSource x y s <<< 1) (highBitOut (shiftSource x y s)))

/-- CXNN (rule R132): the random byte is a free value (log entry 4). -/
def execRnd (x : RegIx) (nn : Byte) (s : State) : Result := .next (s.advance.drawn.writeV x (s.randomByte &&& nn))

end Sys2Proof.Machine
end

