-- ==== Sys2Proof/Machine/ControlFlow.lean ====
section
/-! DEFINITION. Control transfer (40_control_flow.md) and the no-op of an unrecognized word (30_encoding.md rule R78). In every
meaning `s` is the state before the step, so `s.pc` is the address of the instruction, and the meaning makes the advance of
rule R100 itself (log entry 10). -/

namespace Sys2Proof.Machine

/-- 00EE (rule R101). -/
def execRet (s : State) : Result :=
  match s.advance.pop with
  | some (w, t) => .next (t.jumpTo w)
  | none => raise .stackUnderflow s

/-- 1NNN (rule R102). -/
def execJp (nnn : Addr12) (s : State) : Result := .next (s.advance.jumpTo (absoluteTarget nnn))

/-- 2NNN (rule R103): the advanced `pc` is pushed. -/
def execCall (nnn : Addr12) (s : State) : Result :=
  match s.advance.push s.advance.pc with
  | some t => .next (t.jumpTo (absoluteTarget nnn))
  | none => raise .stackOverflow s

/-- 3XNN (rule R105). -/
def execSeImm (x : RegIx) (nn : Byte) (s : State) : Result := .next (s.advance.skipIf (s.readV x == nn))

/-- 4XNN (rule R106). -/
def execSneImm (x : RegIx) (nn : Byte) (s : State) : Result := .next (s.advance.skipIf (s.readV x != nn))

/-- 5XY0 (rule R107). -/
def execSeReg (x y : RegIx) (s : State) : Result := .next (s.advance.skipIf (s.readV x == s.readV y))

/-- 9XY0 (rule R108). -/
def execSneReg (x y : RegIx) (s : State) : Result := .next (s.advance.skipIf (s.readV x != s.readV y))

/-- BNNN (rule R110): the register is always V0, the sum is not reduced. -/
def execJpV0 (nnn : Addr12) (s : State) : Result := .next (s.advance.jumpTo (indexedTarget (s.readV 0) nnn))

/-- Any other word (rule R78): nothing after the prologue. -/
def execUnrec (_op : Word) (s : State) : Result := .next s.advance

end Sys2Proof.Machine
end

