-- ==== Sys2Proof/Machine/Graphics.lean ====
section
/-! DEFINITION. The display instructions (43_display.md). -/

namespace Sys2Proof.Machine

/-- 00E0 (rule R150). -/
def execCls (s : State) : Result := .next (s.advance.setDisplay blankDisplay)

/-- The sprite bytes a DXYN reads (rule R151): only the rows that are drawn. -/
def spriteBytes (y : RegIx) (n : Height) (s : State) : List Byte :=
  s.mem.readBytes s.i.toNat (spriteRows n (spriteRow (s.readV y)))

/-- The display and the collision after a DXYN (rule R151). -/
def drawn (x y : RegIx) (n : Height) (s : State) : Display × Bool :=
  drawRows (spriteColumn (s.readV x)) (spriteRow (s.readV y)) (spriteBytes y n s) (s.display, false)

/-- DXYN (rule R151): VF is always written, also when nothing is drawn. -/
def execDrw (x y : RegIx) (n : Height) (s : State) : Result :=
  if accessOk s.i.toNat (spriteRows n (spriteRow (s.readV y))) then
    .next ((s.advance.setDisplay (drawn x y n s).1).writeV vf (flagByte (drawn x y n s).2))
  else raise .memOutOfRange s

end Sys2Proof.Machine
end

