-- ==== Sys2Proof/Machine/IndexMemory.lean ====
section
/-! DEFINITION. The index register, loads and stores (42_index_memory.md). Each data access checks its whole footprint before
any write (20_memory.md rule R55). -/

namespace Sys2Proof.Machine

/-- ANNN (rule R140). -/
def execLdI (nnn : Addr12) (s : State) : Result := .next (s.advance.setI (absoluteTarget nnn))

/-- FX1E (rule R141): 16-bit wrap, no flag. -/
def execAddI (x : RegIx) (s : State) : Result := .next (s.advance.setI (indexPlus s.i (s.readV x)))

/-- FX29 (rule R142): the whole 8-bit value is multiplied. -/
def execLdF (x : RegIx) (s : State) : Result := .next (s.advance.setI (glyphAddress (s.readV x)))

/-- FX33 (rule R143). -/
def execLdB (x : RegIx) (s : State) : Result :=
  if accessOk s.i.toNat 3 then .next (s.advance.storeBytes s.i.toNat (decimalDigits (s.readV x)))
  else raise .memOutOfRange s

/-- FX55 (rule R144). -/
def execLdMemVx (x : RegIx) (s : State) : Result :=
  if accessOk s.i.toNat (x.val + 1) then
    .next ((s.advance.storeBytes s.i.toNat (s.regsThrough x)).setI (indexAfterBlock s.i x))
  else raise .memOutOfRange s

/-- FX65 (rule R145). -/
def execLdVxMem (x : RegIx) (s : State) : Result :=
  if accessOk s.i.toNat (x.val + 1) then
    .next ((s.advance.loadRegs (s.mem.readBytes s.i.toNat (x.val + 1))).setI (indexAfterBlock s.i x))
  else raise .memOutOfRange s

end Sys2Proof.Machine
end

