-- ==== Sys2Proof/Machine/KeypadTimers.lean ====
section
/-! DEFINITION. The keypad and timer instructions (44_keypad_timers.md). -/

namespace Sys2Proof.Machine

/-- EX9E (rule R160): a key index above 15 faults. -/
def execSkp (x : RegIx) (s : State) : Result :=
  match keyNamed (s.readV x) with
  | some k => .next (s.advance.skipIf (s.keyPressed k))
  | none => raise .keyIndexOutOfRange s

/-- EXA1 (rule R161). -/
def execSknp (x : RegIx) (s : State) : Result :=
  match keyNamed (s.readV x) with
  | some k => .next (s.advance.skipIf (!s.keyPressed k))
  | none => raise .keyIndexOutOfRange s

/-- FX07 (rule R162). -/
def execLdVxDt (x : RegIx) (s : State) : Result := .next (s.advance.writeV x s.dt)

/-- FX15 (rule R164). -/
def execLdDtVx (x : RegIx) (s : State) : Result := .next (s.advance.setDt (s.readV x))

/-- FX18 (rule R165). -/
def execLdStVx (x : RegIx) (s : State) : Result := .next (s.advance.setSt (s.readV x))

/-- FX0A (rule R163): the first execution arms and stays; a later one stays until a key has risen since the last look, and
then takes the least index. Staying leaves `pc` at the instruction's own address. -/
def execLdVxK (x : RegIx) (s : State) : Result :=
  match s.wait with
  | false => .next (s.lookAtKeys true)
  | true =>
    match leastKey s.risingKeys with
    | none => .next (s.lookAtKeys true)
    | some k => .next ((s.advance.lookAtKeys false).writeV x (BitVec.ofNat 8 k.val))

end Sys2Proof.Machine
end

