-- ==== Sys2Proof/Machine/Actions.lean ====
section
/-! DEFINITION. The actions of the agents (00_scope.md rule R6), which of them comes next, with the documented schedule
(70_reset_and_hazards.md rule R202), and the output ports (60_exceptions.md section 4). -/

namespace Sys2Proof.Machine

/-- Stuck: the action is not enabled (10_state.md rule R31, U20; log entry 3). -/
def notEnabled (a : Action) : Result := .fault (.notEnabled a)

/-- `Step` once it is enabled: fetch check, fetch, decode, execute (rules R100, R177). -/
def runInstruction (s : State) : Result :=
  if accessOk s.pc.toNat 2 then exec (decodeWord s.fetchWord) s else raise .memOutOfRange s

/-- `Step`: enabled iff `RUN = Running` (rule R100). -/
def doStep (s : State) : Result :=
  match s.run with
  | .running => runInstruction s
  | .paused => notEnabled .step
  | .halted => notEnabled .step

/-- A countdown stops at 0 (rules R28, R29). -/
def countDown (b : Byte) : Byte := if b = 0 then 0 else b - 1

/-- `Tick`: enabled iff `RUN` is not `Halted` (rule R180). -/
def doTick (s : State) : Result :=
  match s.run with
  | .running => .next ((s.setDt (countDown s.dt)).setSt (countDown s.st))
  | .paused => .next ((s.setDt (countDown s.dt)).setSt (countDown s.st))
  | .halted => notEnabled .tick

/-- `keypad` with key `k` pressed or not (rule R181). -/
def withKey (k : KeyIx) (down : Bool) (kp : BitVec 16) : BitVec 16 :=
  if down then kp ||| (1#16 <<< k.val) else kp &&& ~~~(1#16 <<< k.val)

/-- `KeyDown(k)` and `KeyUp(k)`: enabled unless `RUN = Halted` (rule R181). -/
def doKey (k : KeyIx) (down : Bool) (s : State) : Result :=
  match s.run with
  | .running => .next (s.setKeypad (withKey k down s.keypad))
  | .paused => .next (s.setKeypad (withKey k down s.keypad))
  | .halted => notEnabled (.input (if down then .keyDown k else .keyUp k))

/-- `RUN` after `PauseToggle` (rule R182). -/
def afterPauseToggle : RunState → RunState
  | .running => .paused
  | .paused => .running
  | .halted => .halted

/-- One action of the input agent (rules R181, R182). -/
def doInput (e : Input) (s : State) : Result :=
  match e with
  | .keyDown k => doKey k true s
  | .keyUp k => doKey k false s
  | .pauseToggle => .next (s.setRun (afterPauseToggle s.run))
  | .quit => .next (s.setRun .halted)

/-- One action of any agent (rule R6); an observation changes nothing (rule R184). -/
def act (a : Action) (s : State) : Result :=
  match a with
  | .step => doStep s
  | .tick => doTick s
  | .input e => doInput e s
  | .observe => .next s

/-! ### Which action comes next (rules R6, R202) -/

/-- Whether an action is enabled in a run state (10_state.md rule R31, 60_exceptions.md rules R180 to R182). -/
def enabled (r : RunState) (a : Action) : Bool :=
  match a, r with
  | .step, .running => true
  | .step, .paused => false
  | .step, .halted => false
  | .tick, .halted => false
  | .tick, _ => true
  | .input (.keyDown _), .halted => false
  | .input (.keyUp _), .halted => false
  | .input _, _ => true
  | .observe, _ => true

/-- One frame of the Frame Driver (70_reset_and_hazards.md rule R202): all pending inputs, the burst of `CYCLES_PER_TICK` steps,
one display observation, one tick. -/
def frameAgenda (cyclesPerTick : CyclesPerTick) (pending : List Input) : List Action :=
  pending.map Action.input ++ (List.replicate cyclesPerTick.val Action.step ++ [Action.observe, Action.tick])

/-- The part of an agenda that starts with its first enabled action: under the schedule a disabled action is passed over, so that
a burst has no step while Paused and fewer after a fault, and nothing but the observation follows a halt (rule R202). -/
def firstEnabled (r : RunState) (l : List Action) : List Action := l.dropWhile fun a => !enabled r a

/-- The next frame of a schedule, begun (rule R202). -/
def State.beginFrame (d : Schedule) (s : State) : State :=
  { s with
    agenda := firstEnabled s.run (frameAgenda d.cyclesPerTick (d.pending.headD []))
    schedule := some { d with pending := d.pending.tail } }

/-- The state with its agenda brought up to date: as it is without a schedule; under one, disabled actions are passed over, and
when a frame is over the next one begins, until `RUN = Halted` (rule R202; log entries 2, 25). -/
def State.planned (s : State) : State :=
  match s.schedule with
  | none => s
  | some d =>
    match firstEnabled s.run s.agenda, s.run with
    | a :: l, _ => { s with agenda := a :: l }
    | [], .halted => { s with agenda := [] }
    | [], _ => s.beginFrame d

/-- The action whose turn it is: the head of the agenda, or `Step` (log entry 2). -/
def State.nextAction (s : State) : Action := s.planned.agenda.headD .step

/-- The state without that action on its agenda. -/
def State.popAgenda (s : State) : State := { s.planned with agenda := s.planned.agenda.tail }

/-! ### Output ports (rules R180, R183, R184, R186) -/

/-- `tone_on` (rule R183). -/
def State.toneOn (s : State) : Bool := decide (0 < s.st.toNat)

/-- The events the block emits; they have no effect on state (log entry 13). -/
inductive Output where
  /-- `tone_report` (rule R180). -/
  | toneReport (on : Bool)
  /-- What the Display Sink sees, the whole display between two actions (rule R184). -/
  | displayFrame (d : Display)
  /-- `unrec(op, a)` (rule R186). -/
  | unrec (op : Word) (a : Word)
  deriving DecidableEq, Repr

/-- The event of an instruction (rules R78, R186). -/
def instrOutput (i : Instr) (a : Word) : List Output :=
  match i with
  | .unrec op => [.unrec op a]
  | _ => []

/-- The events an action emits when it is taken in a state: an executed unrecognized word emits `unrec`, a tick reports the
tone after the decrement, an observation shows the display (rules R180, R184, R186). -/
def emitted (a : Action) (s : State) : List Output :=
  match a, s.run with
  | .step, .running => if accessOk s.pc.toNat 2 then instrOutput (decodeWord s.fetchWord) s.pc else []
  | .tick, .running => [.toneReport (decide (0 < (countDown s.st).toNat))]
  | .tick, .paused => [.toneReport (decide (0 < (countDown s.st).toNat))]
  | .observe, _ => [.displayFrame s.display]
  | _, _ => []

end Sys2Proof.Machine
end

