-- ==== Sys2Proof/Machine/Reset.lean ====
section
/-! DEFINITION. Reset, the action DOC calls the Loader, as a function of its inputs (70_reset_and_hazards.md rules R190, R191;
values of 10_state.md rule R36). -/

namespace Sys2Proof.Machine

/-- Everything zero, then `FONT` from 0x000 on and `ROM` from 0x200 on (rule R36). -/
def resetMemory (font rom : List Byte) : Memory :=
  (Memory.writeBytes [] 0 font).writeBytes entryPoint rom

/-- The launch state; none when there is none, because the image is too large or the font is not 80 bytes (rules R190, R191). -/
def loader (cfg : Config) (font rom : List Byte) : Option State :=
  if font.length = fontSize ∧ rom.length ≤ romMax then
    some { State.reset with mem := resetMemory font rom, cfg := cfg }
  else none

end Sys2Proof.Machine
end

