-- ==== Sys2Proof/Machine/Step.lean ====
section
/-! DEFINITION. One step of the whole machine: the next action, taken by its agent (00_scope.md rules R6, R9). -/

namespace Sys2Proof.Machine

def step (s : State) : Host.Outcome State Fault Refusal := act s.nextAction s.popAgenda

/-- The state with a word placed where the next fetch reads, and made to run it: the word's bytes at `pc` (at the entry point
when `pc` cannot be fetched from), nothing scheduled before it, and the machine Running (log entry 9). -/
def State.withFetchWord (s : State) (nbits w : Nat) : State :=
  let a := if accessOk s.pc.toNat 2 then s.pc else BitVec.ofNat 16 entryPoint
  { s with
    mem := s.mem.writeBytes a.toNat (bytesOfWord (BitVec.ofNat 16 (w % 2 ^ nbits)))
    pc := a
    run := .running
    fault := .none
    agenda := []
    schedule := none }

end Sys2Proof.Machine
end

