-- ==== Sys2Proof/Safety.lean ====
section
/-! DEFINITION. The terms in which claims speak: parts of the state and frames, the causes of faults, the invariant of every
reachable state (10_state.md rule R37), and what a safe run is. -/

namespace Sys2Proof.Machine

/-! ### Parts of the state and frames -/

/-- The elements of the state, as claims about frames name them. -/
inductive Part where
  | mem | display | v | i | pc | stack | sp | dt | st | keypad | run | fault | wait | keyPrev | cfg | draws | agenda | schedule
  deriving DecidableEq, Repr

/-- The element is the same in two states; memory is read byte by byte, registers one by one. -/
def Part.same : Part → State → State → Prop
  | .mem, s, t => ∀ a, t.readMem a = s.readMem a
  | .display, s, t => t.display = s.display
  | .v, s, t => ∀ x, t.readV x = s.readV x
  | .i, s, t => t.i = s.i
  | .pc, s, t => t.pc = s.pc
  | .stack, s, t => t.stack = s.stack
  | .sp, s, t => t.sp = s.sp
  | .dt, s, t => t.dt = s.dt
  | .st, s, t => t.st = s.st
  | .keypad, s, t => t.keypad = s.keypad
  | .run, s, t => t.run = s.run
  | .fault, s, t => t.fault = s.fault
  | .wait, s, t => t.wait = s.wait
  | .keyPrev, s, t => t.keyPrev = s.keyPrev
  | .cfg, s, t => t.cfg = s.cfg
  | .draws, s, t => t.draws = s.draws
  | .agenda, s, t => t.agenda = s.agenda
  | .schedule, s, t => t.schedule = s.schedule

/-- Every element outside the list is the same in two states. -/
def Keeps (except : List Part) (s t : State) : Prop := ∀ p, p ∉ except → p.same s t

/-- The elements an instruction that does not fault may write (10_state.md rule R35, with the rule of each instruction). -/
def writtenParts : Instr → List Part
  | .cls => [.pc, .display]
  | .ret => [.pc, .sp]
  | .jp _ => [.pc]
  | .call _ => [.pc, .sp, .stack]
  | .seImm _ _ | .sneImm _ _ | .seReg _ _ | .sneReg _ _ => [.pc]
  | .ldImm _ _ | .addImm _ _ | .ldReg _ _ => [.pc, .v]
  | .orReg _ _ | .andReg _ _ | .xorReg _ _ => [.pc, .v]
  | .addReg _ _ | .sub _ _ | .shr _ _ | .subn _ _ | .shl _ _ => [.pc, .v]
  | .ldI _ => [.pc, .i]
  | .jpV0 _ => [.pc]
  | .rnd _ _ => [.pc, .v, .draws]
  | .drw _ _ _ => [.pc, .display, .v]
  | .skp _ | .sknp _ => [.pc]
  | .ldVxDt _ => [.pc, .v]
  | .ldVxK _ => [.pc, .v, .wait, .keyPrev]
  | .ldDtVx _ => [.pc, .dt]
  | .ldStVx _ => [.pc, .st]
  | .addI _ | .ldF _ => [.pc, .i]
  | .ldB _ => [.pc, .mem]
  | .ldMemVx _ => [.pc, .mem, .i]
  | .ldVxMem _ => [.pc, .v, .i]
  | .unrec _ => [.pc]

/-! ### Faults -/

/-- The cause the body of an instruction raises in a state (60_exceptions.md rules R170, R177; footprints of 20_memory.md rule
R55); `none` when it raises nothing. -/
def faultCause (i : Instr) (s : State) : FaultCode :=
  match i with
  | .call _ => if s.sp.val = 12 then .stackOverflow else .none
  | .ret => if s.sp.val = 0 then .stackUnderflow else .none
  | .ldB _ => if s.i.toNat + 2 > 4095 then .memOutOfRange else .none
  | .ldMemVx x | .ldVxMem x => if s.i.toNat + x.val > 4095 then .memOutOfRange else .none
  | .drw _ y n =>
    if 0 < min n.val (32 - (s.readV y).toNat % 32) ∧
        s.i.toNat + min n.val (32 - (s.readV y).toNat % 32) - 1 > 4095 then .memOutOfRange else .none
  | .skp x | .sknp x => if (s.readV x).toNat > 15 then .keyIndexOutOfRange else .none
  | .cls | .jp _ | .seImm _ _ | .sneImm _ _ | .seReg _ _ | .sneReg _ _ | .jpV0 _ => .none
  | .ldImm _ _ | .addImm _ _ | .ldReg _ _ | .orReg _ _ | .andReg _ _ | .xorReg _ _ => .none
  | .addReg _ _ | .sub _ _ | .shr _ _ | .subn _ _ | .shl _ _ | .rnd _ _ => .none
  | .ldI _ | .addI _ | .ldF _ => .none
  | .ldVxDt _ | .ldVxK _ | .ldDtVx _ | .ldStVx _ | .unrec _ => .none

/-- The instruction faults with the cause in the state: fault entry, with nothing but `FAULT` and `RUN` changed (60_exceptions.md
rule R176; that it is a next state is log entry 1). -/
def FaultsWith (c : FaultCode) (i : Instr) (s : State) : Prop :=
  ∃ t, exec i s = .next t ∧ t.fault = c ∧ t.run = .halted ∧ Keeps [.fault, .run] s t

/-- Whether an instruction may write VF: as the flag, or because X = F (or the range V0 to VX) names it as the destination
(10_state.md rule R23). -/
def mayWriteVf (c : Config) : Instr → Bool
  | .addReg _ _ | .sub _ _ | .shr _ _ | .subn _ _ | .shl _ _ | .drw _ _ _ => true
  | .orReg x _ | .andReg x _ | .xorReg x _ => decide (c.logicVf = .reset) || decide (x = 15)
  | .ldImm x _ | .addImm x _ | .rnd x _ => decide (x = 15)
  | .ldReg x _ => decide (x = 15)
  | .ldVxDt x | .ldVxK x | .ldVxMem x => decide (x = 15)
  | .cls | .ret | .jp _ | .call _ | .seImm _ _ | .sneImm _ _ | .seReg _ _ | .sneReg _ _ | .jpV0 _ => false
  | .ldI _ | .addI _ | .ldF _ | .ldB _ | .ldMemVx _ => false
  | .skp _ | .sknp _ | .ldDtVx _ | .ldStVx _ | .unrec _ => false

/-! ### Encodings and sequences, as claims name them -/

/-- Every word that has the pattern under the mask decodes to the instruction its fields give (30_encoding.md rule R76). -/
def SelectedBy (mask pattern : Word) (f : Word → Instr) : Prop := ∀ w, w &&& mask = pattern → decodeWord w = f w

/-- Instructions executed one after the other. -/
def execAll : List Instr → State → Result
  | [], s => .next s
  | i :: is, s =>
    match exec i s with
    | .next t => execAll is t
    | .fault r => .fault r
    | .refused r => .refused r

/-- Actions taken one after the other (00_scope.md rule R6). -/
def actAll : List Action → State → Result
  | [], s => .next s
  | a :: as, s =>
    match act a s with
    | .next t => actAll as t
    | .fault r => .fault r
    | .refused r => .refused r

/-- The address of the `k`-th of a chain of calls, each standing where the one before it jumped to. -/
def callSite (s : State) (targets : List Addr12) (k : Nat) : Word :=
  if k = 0 then s.pc else absoluteTarget (targets.getD (k - 1) 0)

/-- The sprite bit that DXYN puts on row `r`, column `c` (43_display.md rule R151): from memory as it is in the state, with the
origin wrapped and the rows below the bottom edge left out. -/
def drawnBit (s : State) (x y : RegIx) (n : Height) (r c : Nat) : Bool :=
  decide ((s.readV y).toNat % 32 ≤ r ∧ r < (s.readV y).toNat % 32 + n.val ∧ r < 32 ∧
      (s.readV x).toNat % 64 ≤ c ∧ c < (s.readV x).toNat % 64 + 8 ∧ c < 64) &&
    (s.readMem (s.i.toNat + (r - (s.readV y).toNat % 32))).getLsbD (7 - (c - (s.readV x).toNat % 64))

/-! ### The invariant -/

/-- The word is an FX0A (rule R33). -/
def isKeyWait (w : Word) : Prop := ∃ x, decodeWord w = .ldVxK x

/-- Rule R37 (b), (c), (d), with the bound on stacked addresses that keeps (b) (rule R25) and the canonical form of memory;
(a) and (e) are in the types of `State`. -/
structure State.Inv (s : State) : Prop where
  memWf : s.mem.wf = true
  pcBound : s.pc.toNat ≤ 0x10FE
  stackBound : ∀ j : Fin 12, j.val < s.sp.val → s.stack[j].toNat ≤ 0x10FE
  faultHalts : s.fault ≠ .none → s.run = .halted
  waiting : s.wait = true → s.pc.toNat ≤ 4094 ∧ isKeyWait s.fetchWord

/-! ### Runs -/

/-- The state with another agenda and schedule: the same machine, with other actions to come. -/
def State.withPlan (l : List Action) (d : Option Schedule) (s : State) : State := { s with agenda := l, schedule := d }

/-- `n` steps lead to a state that agrees with `t` in everything but the model's own `agenda` and `schedule`. -/
def RunsTo (n : Nat) (s t : State) : Prop := ∃ u, Sys2Proof.core.run n s = .next u ∧ Keeps [.agenda, .schedule] t u

/-- No fault has happened; a state with `FAULT` set is never a good one (rule R176). -/
def State.Unfaulted (s : State) : Prop := s.fault = .none

/-- `n` actions can be taken one after the other, and no fault has happened after them. -/
def SafeRun (n : Nat) (s : State) : Prop := ∃ t, Sys2Proof.core.run n s = .next t ∧ t.Unfaulted

end Sys2Proof.Machine
end

