-- ==== Sys2Proof/Certificates/Slice0/Obligations.lean ====
section
/-! DEFINITION. The statements for the provers. An instruction's statement gives its encoding (`SelectedBy`), the next state its
own effect answers, its frame (`Keeps`), and where it faults (`FaultsWith`). -/

open Sys2Proof Sys2Proof.Machine

/-! ### Encoding -/

/-- Words written out from the patterns of 30_encoding.md rule R76 decode to what they stand for (that 0x01E0 is a no-op is
decision D10, log entry 17). -/
def Obligations.SampleWordsDecode : Prop :=
  decodeWord 0b0000000011100000#16 = .cls ∧ decodeWord 0b0010001101000101#16 = .call 0x345 ∧
    decodeWord 0b0111000100000101#16 = .addImm 1 0x05 ∧ decodeWord 0b1000000100101110#16 = .shl 1 2 ∧
    decodeWord 0b1101000100100011#16 = .drw 1 2 3 ∧ decodeWord 0b1110000110100001#16 = .sknp 1 ∧
    decodeWord 0b1111001001100101#16 = .ldVxMem 2 ∧ decodeWord 0b0000000111100000#16 = .unrec 0x01E0

/-- R71: the fields of an opcode, how they overlap, and where they lie in the two fetched bytes; every opcode decodes. -/
def Obligations.FieldsOfOpcode : Prop :=
  (∀ w : Word, (opField w).toNat = w.toNat / 4096 ∧ (xField w).val = w.toNat / 256 % 16 ∧
      (yField w).val = w.toNat / 16 % 16 ∧ (nField w).val = w.toNat % 16 ∧ (nnField w).toNat = w.toNat % 256 ∧
      (nnnField w).toNat = w.toNat % 4096 ∧
      (nnField w).toNat = (yField w).val * 16 + (nField w).val ∧
      (nnnField w).toNat = (xField w).val * 256 + (nnField w).toNat) ∧
    (∀ b0 b1 : Byte, (opField (wordOfBytes b0 b1)).toNat = b0.toNat / 16 ∧
      (xField (wordOfBytes b0 b1)).val = b0.toNat % 16 ∧ (yField (wordOfBytes b0 b1)).val = b1.toNat / 16 ∧
      (nField (wordOfBytes b0 b1)).val = b1.toNat % 16 ∧ nnField (wordOfBytes b0 b1) = b1)

/-- Every well-formed instruction survives encoding and decoding, as a word and as bytes with any bytes after it (that a word no
pattern takes whole is a no-op is decision D10, log entry 17). -/
def Obligations.DecodeOfEncode : Prop :=
  ∀ (i : Instr) (rest : List Byte), i.wf = true →
    decodeWord (encode i) = i ∧ decodeBytes (encodeBytes i ++ rest) = .ok (i, rest)

/-- Every word decodes to a well-formed instruction that encodes to it: no bit of a word is dropped, none is read twice (the
no-op words by decision D10, log entry 17). -/
def Obligations.EncodeOfDecode : Prop := ∀ w : Word, (decodeWord w).wf = true ∧ encode (decodeWord w) = w

/-- The opcode map has 34 rows, and no word selects two of them (30_encoding.md, the disjointness sentence). -/
def Obligations.OpcodeRowsExcludeEachOther : Prop :=
  opcodeTable.length = 34 ∧
    ∀ (w : Word) (j k : Fin opcodeTable.length),
      opcodeTable[j].selects w = true → opcodeTable[k].selects w = true → j = k

/-- The words that decode to the no-op are exactly those of the family list of 30_encoding.md (decision D10, log entry 17). -/
def Obligations.UnrecognizedWordsByFamily : Prop :=
  ∀ w : Word, (unrecognizedWord w = true ↔ decodeWord w = .unrec w) ∧ (∀ op, decodeWord w = .unrec op → op = w)

/-! ### The step -/

/-- A step takes the next action, and a `Step` runs the decoded instruction. Without a schedule the next action is the agenda's
head, whatever action it is, or `Step` (decision D27; log entries 2, 25); what `step` sets apart for it is the model's own
fields only. When the machine is Running and the two bytes at `pc` exist and decode to `i`, a `Step` is `exec i` on the state it
is taken in (log entry 10). -/
def Obligations.StepRunsDecodedInstruction : Prop :=
  (∀ (s : State) (a : Action) (rest : List Action), s.schedule = none → s.agenda = a :: rest →
      step s = act a { s with agenda := rest }) ∧
    (∀ s : State, s.schedule = none → s.agenda = [] → step s = act .step s) ∧
    (∀ s : State, step s = act s.nextAction s.popAgenda ∧ Keeps [.agenda, .schedule] s s.popAgenda) ∧
    (∀ (s : State) (i : Instr), s.run = .running → s.pc.toNat ≤ 4094 →
      decodeBytes [s.readMem s.pc.toNat, s.readMem (s.pc.toNat + 1)] = .ok (i, []) →
      act .step s = exec i s ∧ (s.schedule = none → s.agenda = [] → step s = exec i s) ∧
        (∀ rest, s.schedule = none → s.agenda = Action.step :: rest → step s = exec i { s with agenda := rest }))

/-- A fetch beyond memory faults with `MemOutOfRange`, with `pc` kept (decisions D2, D3, D25; log entries 1, 15). -/
def Obligations.FetchBeyondMemoryFaults : Prop :=
  ∀ s : State, s.run = .running → 4094 < s.pc.toNat →
    act .step s = .next { s with fault := .memOutOfRange, run := .halted } ∧
      (s.schedule = none → s.agenda = [] → step s = .next { s with fault := .memOutOfRange, run := .halted }) ∧
      (∀ rest, s.schedule = none → s.agenda = Action.step :: rest →
        step s = .next { s with agenda := rest, fault := .memOutOfRange, run := .halted })

/-- An enabled action of any agent gives a next state; one that is not enabled does not happen, and the model stops by its name
(10_state.md section 5 and 60_exceptions.md section 3; the stop is log entry 3, the enabling while Paused and Halted is
decisions D11, D22, D26, log entries 19, 22). -/
def Obligations.EnabledActionsComplete : Prop :=
  ∀ (a : Action) (s : State), (enabled s.run a = true → ∃ t, act a s = .next t) ∧
    (enabled s.run a = false → act a s = .fault (.notEnabled a)) ∧
    (enabled s.run .step = true ↔ s.run = .running) ∧ (enabled s.run .tick = true ↔ s.run ≠ .halted)

/-- Nothing changes once `RUN = Halted`: an action is not enabled, or it changes nothing but the model's own fields; and no
`Step` is enabled while Paused (decisions D11, D22, D26; log entries 2, 3, 19, 22, 25). -/
def Obligations.HaltedNeverChanges : Prop :=
  (∀ s : State, s.run = .halted →
      step s = .fault (.notEnabled s.nextAction) ∨ ∃ t, step s = .next t ∧ Keeps [.agenda, .schedule] s t) ∧
    (∀ s : State, s.run = .paused → s.nextAction = .step → step s = .fault (.notEnabled .step))

/-- Fault entry is precise: whatever cause an instruction has to fault in a state, the next state is that state with `FAULT` and
`RUN` changed, and nothing else (decision D2, log entry 1). -/
def Obligations.FaultEntryIsPrecise : Prop :=
  ∀ (i : Instr) (s : State), faultCause i s ≠ .none →
    exec i s = .next { s with fault := faultCause i s, run := .halted }

/-- Without a cause to fault every instruction completes and writes only the elements its rule names (10_state.md, the access
table; log entry 2 for the model's own fields). -/
def Obligations.EveryInstructionCompletesInFrame : Prop :=
  ∀ (i : Instr) (s : State), faultCause i s = .none → ∃ t, exec i s = .next t ∧ Keeps (writtenParts i) s t

/-- VF changes only under the instructions that write it as a flag or name it as the destination (10_state.md, decisions D5, D6;
log entries 5, 24). -/
def Obligations.VfWrittenOnlyWhereNamed : Prop :=
  ∀ (i : Instr) (s t : State), exec i s = .next t → mayWriteVf s.cfg i = false → t.readV vf = s.readV vf

/-- No instruction reads `ST`: two states that differ in `ST` alone stay equal in everything else (10_state.md section 5; a
fault is a next state by decision D2, log entry 1). -/
def Obligations.NoInstructionReadsSt : Prop :=
  ∀ (i : Instr) (s : State) (b : Byte),
    ∃ t u, exec i s = .next t ∧ exec i { s with st := b } = .next u ∧ Keeps [.st] t u

/-- No instruction copies pixels into a register other than through the collision flag of DXYN (10_state.md section 1; a fault
is a next state by decision D2, log entry 1). -/
def Obligations.DisplayReadOnlyThroughCollision : Prop :=
  ∀ (i : Instr) (s : State) (d : Display),
    ∃ t u, exec i s = .next t ∧ exec i { s with display := d } = .next u ∧ Keeps [.display, .v] t u ∧
      (∀ j, j ≠ vf → u.readV j = t.readV j) ∧ ((∀ x y n, i ≠ .drw x y n) → u.readV vf = t.readV vf)

/-! ### Control transfer -/

/-- 00EE (40_control_flow.md section 2). The stack's slots and their numbering are decision D16, log entry 26; the fault entry
is decision D2, log entry 1; that the popped slot keeps its content is log entry 12. -/
def Obligations.RetPopsReturnAddress : Prop :=
  SelectedBy 0xFFFF 0x00EE (fun _ => .ret) ∧
    (∀ s : State, s.sp.val = 0 → FaultsWith .stackUnderflow .ret s) ∧
    (∀ (s : State) (k : Fin 12), s.sp.val = k.val + 1 →
      ∃ t, exec .ret s = .next t ∧ t.sp.val = k.val ∧ t.pc = s.stack[k] ∧ Keeps [.pc, .sp] s t)

/-- R102: 1NNN; a jump to its own address changes no state. -/
def Obligations.JumpSetsPc : Prop :=
  SelectedBy 0xF000 0x1000 (fun w => .jp (nnnField w)) ∧
    ∀ (s : State) (nnn : Addr12),
      (∃ t, exec (.jp nnn) s = .next t ∧ t.pc.toNat = nnn.toNat ∧ Keeps [.pc] s t) ∧
        (s.pc.toNat = nnn.toNat → exec (.jp nnn) s = .next s)

/-- 2NNN pushes the advanced `pc` (40_control_flow.md section 2). The stack's slots and their numbering are decision D16, log
entry 26; the fault entry is decision D2, log entry 1. -/
def Obligations.CallPushesAdvancedPc : Prop :=
  SelectedBy 0xF000 0x2000 (fun w => .call (nnnField w)) ∧
    ∀ (s : State) (nnn : Addr12),
      (s.sp.val = 12 → FaultsWith .stackOverflow (.call nnn) s) ∧
        (∀ k : Fin 12, s.sp.val = k.val →
          ∃ t, exec (.call nnn) s = .next t ∧ t.pc.toNat = nnn.toNat ∧ t.sp.val = k.val + 1 ∧
            t.stack[k] = s.pc + 2 ∧ (∀ j : Fin 12, j ≠ k → t.stack[j] = s.stack[j]) ∧ Keeps [.pc, .sp, .stack] s t)

/-- R105, R106: 3XNN and 4XNN. -/
def Obligations.ImmediateSkips : Prop :=
  SelectedBy 0xF000 0x3000 (fun w => .seImm (xField w) (nnField w)) ∧
    SelectedBy 0xF000 0x4000 (fun w => .sneImm (xField w) (nnField w)) ∧
    ∀ (s : State) (x : RegIx) (nn : Byte),
      (∃ t, exec (.seImm x nn) s = .next t ∧ t.pc = (if s.readV x = nn then s.pc + 4 else s.pc + 2) ∧ Keeps [.pc] s t) ∧
        (∃ t, exec (.sneImm x nn) s = .next t ∧ t.pc = (if s.readV x = nn then s.pc + 2 else s.pc + 4) ∧ Keeps [.pc] s t)

/-- R107, R108: 5XY0 and 9XY0; with X = Y the first always skips, the second never. -/
def Obligations.RegisterSkips : Prop :=
  SelectedBy 0xF00F 0x5000 (fun w => .seReg (xField w) (yField w)) ∧
    SelectedBy 0xF00F 0x9000 (fun w => .sneReg (xField w) (yField w)) ∧
    ∀ (s : State) (x y : RegIx),
      (∃ t, exec (.seReg x y) s = .next t ∧ t.pc = (if s.readV x = s.readV y then s.pc + 4 else s.pc + 2) ∧
        Keeps [.pc] s t) ∧
      (∃ t, exec (.sneReg x y) s = .next t ∧ t.pc = (if s.readV x = s.readV y then s.pc + 2 else s.pc + 4) ∧
        Keeps [.pc] s t)

/-- BNNN adds V0, whatever the X digit is (40_control_flow.md section 4); that the sum is not reduced is decision D17, log entry
20. -/
def Obligations.IndexedJumpAddsV0 : Prop :=
  SelectedBy 0xF000 0xB000 (fun w => .jpV0 (nnnField w)) ∧
    ∀ (s : State) (nnn : Addr12),
      ∃ t, exec (.jpV0 nnn) s = .next t ∧ t.pc.toNat = (s.readV 0).toNat + nnn.toNat ∧ Keeps [.pc] s t

/-- Stack discipline (40_control_flow.md section 5): after a chain of nested calls that fits on the stack, the m-th return
resumes behind the matching call and gives its slot back, everything below stays, and one return more than calls on an empty
stack underflows (decisions D2, D16; log entries 1, 26). -/
def Obligations.NestedCallsReturnInOrder : Prop :=
  ∀ (s : State) (targets : List Addr12) (m : Nat),
    s.sp.val + targets.length ≤ 12 → 0 < m → m ≤ targets.length →
    ∃ t, execAll (targets.map Instr.call ++ List.replicate m Instr.ret) s = .next t ∧
      t.pc = callSite s targets (targets.length - m) + 2 ∧ t.sp.val = s.sp.val + (targets.length - m) ∧
      (∀ j : Fin 12, j.val < s.sp.val → t.stack[j] = s.stack[j]) ∧ Keeps [.pc, .sp, .stack] s t ∧
      (t.sp.val = 0 → FaultsWith .stackUnderflow .ret t)

/-- An unrecognized word does nothing after the prologue, and 0x0000 is one (30_encoding.md section 4, the rule of UNREC). That
its execution emits `unrec` with its address is the spec's own choice (decision D23), and that an event is a function of the
state is the model's (log entry 13). -/
def Obligations.UnrecognizedIsNoOp : Prop :=
  (∀ w : Word, (∀ r ∈ opcodeTable, r.selects w = false) → decodeWord w = .unrec w) ∧
    decodeWord 0x0000 = .unrec 0x0000 ∧
    (∀ (s : State) (op : Word), ∃ t, exec (.unrec op) s = .next t ∧ t.pc = s.pc + 2 ∧ Keeps [.pc] s t) ∧
    (∀ (s : State) (op : Word), s.run = .running → s.pc.toNat ≤ 4094 → decodeWord s.fetchWord = .unrec op →
      emitted .step s = [.unrec op s.pc])

/-! ### Arithmetic and logic -/

/-- R120, R121, R122: 6XNN, 7XNN, 8XY0 write V[X] and nothing else but `pc`; 7XNN wraps and sets no flag. -/
def Obligations.LoadsAndAddImmediate : Prop :=
  SelectedBy 0xF000 0x6000 (fun w => .ldImm (xField w) (nnField w)) ∧
    SelectedBy 0xF000 0x7000 (fun w => .addImm (xField w) (nnField w)) ∧
    SelectedBy 0xF00F 0x8000 (fun w => .ldReg (xField w) (yField w)) ∧
    ∀ (s : State) (x y : RegIx) (nn : Byte),
      (∃ t, exec (.ldImm x nn) s = .next t ∧ t.readV x = nn ∧ (∀ j, j ≠ x → t.readV j = s.readV j) ∧
        t.pc = s.pc + 2 ∧ Keeps [.pc, .v] s t) ∧
      (∃ t, exec (.addImm x nn) s = .next t ∧ (t.readV x).toNat = ((s.readV x).toNat + nn.toNat) % 256 ∧
        (∀ j, j ≠ x → t.readV j = s.readV j) ∧ t.pc = s.pc + 2 ∧ Keeps [.pc, .v] s t) ∧
      (∃ t, exec (.ldReg x y) s = .next t ∧ t.readV x = s.readV y ∧ (∀ j, j ≠ x → t.readV j = s.readV j) ∧
        t.pc = s.pc + 2 ∧ Keeps [.pc, .v] s t)

/-- 8XY1, 8XY2, 8XY3 under both values of `LOGIC_VF`, VF cleared after the result (41_alu.md section 3, decision D6, log entries
5, 24). -/
def Obligations.LogicOperations : Prop :=
  SelectedBy 0xF00F 0x8001 (fun w => .orReg (xField w) (yField w)) ∧
    SelectedBy 0xF00F 0x8002 (fun w => .andReg (xField w) (yField w)) ∧
    SelectedBy 0xF00F 0x8003 (fun w => .xorReg (xField w) (yField w)) ∧
    ∀ (s : State) (x y : RegIx) (i : Instr) (r : Byte),
      (i = .orReg x y ∧ r = s.readV x ||| s.readV y) ∨ (i = .andReg x y ∧ r = s.readV x &&& s.readV y) ∨
        (i = .xorReg x y ∧ r = s.readV x ^^^ s.readV y) →
      ∃ t, exec i s = .next t ∧
        (s.cfg.logicVf = .reset → t.readV vf = 0 ∧ (x ≠ vf → t.readV x = r) ∧
          ∀ j, j ≠ x → j ≠ vf → t.readV j = s.readV j) ∧
        (s.cfg.logicVf = .unaffected → t.readV x = r ∧ ∀ j, j ≠ x → t.readV j = s.readV j) ∧
        t.pc = s.pc + 2 ∧ Keeps [.pc, .v] s t

/-- 8XY4 (41_alu.md section 3). That the flag is written after the result, so that with X = F the register ends as the carry, is
decision D5, log entry 24. -/
def Obligations.AddWithCarryFlag : Prop :=
  SelectedBy 0xF00F 0x8004 (fun w => .addReg (xField w) (yField w)) ∧
    ∀ (s : State) (x y : RegIx),
      ∃ t, exec (.addReg x y) s = .next t ∧
        (t.readV vf).toNat = (if (s.readV x).toNat + (s.readV y).toNat > 255 then 1 else 0) ∧
        (x ≠ vf → (t.readV x).toNat = ((s.readV x).toNat + (s.readV y).toNat) % 256) ∧
        (∀ j, j ≠ x → j ≠ vf → t.readV j = s.readV j) ∧ t.pc = s.pc + 2 ∧ Keeps [.pc, .v] s t

/-- 8XY5 and 8XY7 (41_alu.md section 3); the flag is 1 when no borrow. That the flag is written after the result, so that with X
= F the register ends as the flag, is decision D5, log entry 24. -/
def Obligations.SubtractionsWithNoBorrowFlag : Prop :=
  SelectedBy 0xF00F 0x8005 (fun w => .sub (xField w) (yField w)) ∧
    SelectedBy 0xF00F 0x8007 (fun w => .subn (xField w) (yField w)) ∧
    ∀ (s : State) (x y : RegIx),
      (∃ t, exec (.sub x y) s = .next t ∧
        (t.readV vf).toNat = (if (s.readV y).toNat ≤ (s.readV x).toNat then 1 else 0) ∧
        (x ≠ vf → (t.readV x).toNat = ((s.readV x).toNat + 256 - (s.readV y).toNat) % 256) ∧
        (∀ j, j ≠ x → j ≠ vf → t.readV j = s.readV j) ∧ t.pc = s.pc + 2 ∧ Keeps [.pc, .v] s t) ∧
      (∃ t, exec (.subn x y) s = .next t ∧
        (t.readV vf).toNat = (if (s.readV x).toNat ≤ (s.readV y).toNat then 1 else 0) ∧
        (x ≠ vf → (t.readV x).toNat = ((s.readV y).toNat + 256 - (s.readV x).toNat) % 256) ∧
        (∀ j, j ≠ x → j ≠ vf → t.readV j = s.readV j) ∧ t.pc = s.pc + 2 ∧ Keeps [.pc, .v] s t)

/-- 8XY6 and 8XYE under both values of `SHIFT_SRC` (41_alu.md section 3, decision D6, log entry 5). That the flag is written
after the result, so that with X = F the register ends as the flag, is decision D5, log entry 24. -/
def Obligations.ShiftsReportBitOut : Prop :=
  SelectedBy 0xF00F 0x8006 (fun w => .shr (xField w) (yField w)) ∧
    SelectedBy 0xF00F 0x800E (fun w => .shl (xField w) (yField w)) ∧
    ∀ (s : State) (x y : RegIx) (b : Byte),
      (s.cfg.shiftSrc = .vy ∧ b = s.readV y) ∨ (s.cfg.shiftSrc = .vx ∧ b = s.readV x) →
      (∃ t, exec (.shr x y) s = .next t ∧ (t.readV vf).toNat = b.toNat % 2 ∧
        (x ≠ vf → (t.readV x).toNat = b.toNat / 2) ∧
        (∀ j, j ≠ x → j ≠ vf → t.readV j = s.readV j) ∧ t.pc = s.pc + 2 ∧ Keeps [.pc, .v] s t) ∧
      (∃ t, exec (.shl x y) s = .next t ∧ (t.readV vf).toNat = b.toNat / 128 ∧
        (x ≠ vf → (t.readV x).toNat = b.toNat * 2 % 256) ∧
        (∀ j, j ≠ x → j ≠ vf → t.readV j = s.readV j) ∧ t.pc = s.pc + 2 ∧ Keeps [.pc, .v] s t)

/-- CXNN, whatever the random byte is (41_alu.md, decision D13; the free draw is log entry 4): the result is the draw under the
mask, no bit outside the mask is set, and the next draw is another one. -/
def Obligations.RandomByteMasked : Prop :=
  SelectedBy 0xF000 0xC000 (fun w => .rnd (xField w) (nnField w)) ∧
    ∀ (s : State) (x : RegIx) (nn : Byte),
      ∃ t, exec (.rnd x nn) s = .next t ∧ t.readV x = Config.randByte s.draws &&& nn ∧ t.readV x &&& ~~~nn = 0 ∧
        t.draws = s.draws + 1 ∧ (∀ j, j ≠ x → t.readV j = s.readV j) ∧ t.pc = s.pc + 2 ∧ Keeps [.pc, .v, .draws] s t

/-! ### Index register, loads and stores -/

/-- R140: ANNN. -/
def Obligations.LoadIndexImmediate : Prop :=
  SelectedBy 0xF000 0xA000 (fun w => .ldI (nnnField w)) ∧
    ∀ (s : State) (nnn : Addr12),
      ∃ t, exec (.ldI nnn) s = .next t ∧ t.i.toNat = nnn.toNat ∧ t.pc = s.pc + 2 ∧ Keeps [.pc, .i] s t

/-- FX1E wraps at 16 bits and sets no flag (decision D17, log entry 20); FX29 multiplies the whole register (decision D9, log
entry 18). -/
def Obligations.IndexAddAndGlyph : Prop :=
  SelectedBy 0xF0FF 0xF01E (fun w => .addI (xField w)) ∧ SelectedBy 0xF0FF 0xF029 (fun w => .ldF (xField w)) ∧
    ∀ (s : State) (x : RegIx),
      (∃ t, exec (.addI x) s = .next t ∧ t.i.toNat = (s.i.toNat + (s.readV x).toNat) % 65536 ∧ t.pc = s.pc + 2 ∧
        Keeps [.pc, .i] s t) ∧
      (∃ t, exec (.ldF x) s = .next t ∧ t.i.toNat = (s.readV x).toNat * 5 ∧ t.pc = s.pc + 2 ∧ Keeps [.pc, .i] s t)

/-- FX33, in states whose memory is in canonical form (42_index_memory.md section 2; decisions D2, D3, log entries 1, 15). -/
def Obligations.StoreDecimalDigits : Prop :=
  SelectedBy 0xF0FF 0xF033 (fun w => .ldB (xField w)) ∧
    ∀ (s : State) (x : RegIx), s.mem.wf = true →
      (4095 < s.i.toNat + 2 → FaultsWith .memOutOfRange (.ldB x) s) ∧
        (s.i.toNat + 2 ≤ 4095 →
          ∃ t, exec (.ldB x) s = .next t ∧
            (t.readMem s.i.toNat).toNat = (s.readV x).toNat / 100 ∧
            (t.readMem (s.i.toNat + 1)).toNat = (s.readV x).toNat / 10 % 10 ∧
            (t.readMem (s.i.toNat + 2)).toNat = (s.readV x).toNat % 10 ∧
            (∀ a, a < s.i.toNat ∨ s.i.toNat + 2 < a → t.readMem a = s.readMem a) ∧
            t.pc = s.pc + 2 ∧ Keeps [.pc, .mem] s t)

/-- FX55, in states whose memory is in canonical form (42_index_memory.md section 2; decisions D2, D3, D17, log entries 1, 15,
20). -/
def Obligations.StoreRegisterBlock : Prop :=
  SelectedBy 0xF0FF 0xF055 (fun w => .ldMemVx (xField w)) ∧
    ∀ (s : State) (x : RegIx), s.mem.wf = true →
      (4095 < s.i.toNat + x.val → FaultsWith .memOutOfRange (.ldMemVx x) s) ∧
        (s.i.toNat + x.val ≤ 4095 →
          ∃ t, exec (.ldMemVx x) s = .next t ∧
            (∀ j : RegIx, j.val ≤ x.val → t.readMem (s.i.toNat + j.val) = s.readV j) ∧
            (∀ a, a < s.i.toNat ∨ s.i.toNat + x.val < a → t.readMem a = s.readMem a) ∧
            t.i.toNat = (s.i.toNat + x.val + 1) % 65536 ∧ t.i.toNat ≤ 4096 ∧
            t.pc = s.pc + 2 ∧ Keeps [.pc, .mem, .i] s t)

/-- FX65 (42_index_memory.md section 2; decisions D2, D3, D17, log entries 1, 15, 20). -/
def Obligations.LoadRegisterBlock : Prop :=
  SelectedBy 0xF0FF 0xF065 (fun w => .ldVxMem (xField w)) ∧
    ∀ (s : State) (x : RegIx),
      (4095 < s.i.toNat + x.val → FaultsWith .memOutOfRange (.ldVxMem x) s) ∧
        (s.i.toNat + x.val ≤ 4095 →
          ∃ t, exec (.ldVxMem x) s = .next t ∧
            (∀ j : RegIx, j.val ≤ x.val → t.readV j = s.readMem (s.i.toNat + j.val)) ∧
            (∀ j : RegIx, x.val < j.val → t.readV j = s.readV j) ∧
            t.i.toNat = (s.i.toNat + x.val + 1) % 65536 ∧ t.pc = s.pc + 2 ∧ Keeps [.pc, .v, .i] s t)

/-- FX55, then in any state with that memory and with `I` set back, FX65: the registers come back, and `I` moves alike
(42_index_memory.md; 95_test_vectors.md P-d; decisions D3, D17, log entries 15, 20). -/
def Obligations.StoreThenLoadRestoresRegisters : Prop :=
  ∀ (s : State) (x : RegIx), s.mem.wf = true → s.i.toNat + x.val ≤ 4095 →
    ∃ t, exec (.ldMemVx x) s = .next t ∧
      ∀ u : State, (∀ a, u.readMem a = t.readMem a) → u.i = s.i →
        ∃ w, exec (.ldVxMem x) u = .next w ∧ (∀ j : RegIx, j.val ≤ x.val → w.readV j = s.readV j) ∧
          (∀ j : RegIx, x.val < j.val → w.readV j = u.readV j) ∧ w.i = t.i

/-- A byte stored by FX33 or FX55 is seen by the very next fetch that covers its address, as the high byte of the opcode or as
the low one, at even and odd addresses alike; a byte the store does not reach is fetched as it was (20_memory.md sections 2, 3
and 7; that an odd `pc` is no fault is decision D4, log entry 23). -/
def Obligations.StoreIsSeenByNextFetch : Prop :=
  (∀ (s : State) (x : RegIx), s.mem.wf = true → s.i.toNat + x.val ≤ 4095 →
      ∃ t, exec (.ldMemVx x) s = .next t ∧
        (∀ j : RegIx, j.val ≤ x.val →
          (t.pc.toNat = s.i.toNat + j.val → t.fetchWord.toNat / 256 = (s.readV j).toNat) ∧
            (t.pc.toNat + 1 = s.i.toNat + j.val → t.fetchWord.toNat % 256 = (s.readV j).toNat)) ∧
        (t.pc.toNat < s.i.toNat ∨ s.i.toNat + x.val < t.pc.toNat →
          t.fetchWord.toNat / 256 = (s.readMem t.pc.toNat).toNat) ∧
        (t.pc.toNat + 1 < s.i.toNat ∨ s.i.toNat + x.val < t.pc.toNat + 1 →
          t.fetchWord.toNat % 256 = (s.readMem (t.pc.toNat + 1)).toNat)) ∧
    (∀ (s : State) (x : RegIx), s.mem.wf = true → s.i.toNat + 2 ≤ 4095 →
      ∃ t, exec (.ldB x) s = .next t ∧
        (∀ k digit : Nat, (k = 0 ∧ digit = (s.readV x).toNat / 100) ∨ (k = 1 ∧ digit = (s.readV x).toNat / 10 % 10) ∨
            (k = 2 ∧ digit = (s.readV x).toNat % 10) →
          (t.pc.toNat = s.i.toNat + k → t.fetchWord.toNat / 256 = digit) ∧
            (t.pc.toNat + 1 = s.i.toNat + k → t.fetchWord.toNat % 256 = digit)) ∧
        (t.pc.toNat < s.i.toNat ∨ s.i.toNat + 2 < t.pc.toNat →
          t.fetchWord.toNat / 256 = (s.readMem t.pc.toNat).toNat) ∧
        (t.pc.toNat + 1 < s.i.toNat ∨ s.i.toNat + 2 < t.pc.toNat + 1 →
          t.fetchWord.toNat % 256 = (s.readMem (t.pc.toNat + 1)).toNat))

/-! ### Display -/

/-- R150: 00E0. -/
def Obligations.ClearDisplay : Prop :=
  SelectedBy 0xFFFF 0x00E0 (fun _ => .cls) ∧
    ∀ s : State, ∃ t, exec .cls s = .next t ∧ (∀ y x, pixel t.display y x = false) ∧ t.pc = s.pc + 2 ∧
      Keeps [.pc, .display] s t

/-- DXYN, pixel by pixel (43_display.md, decisions D3, D18, log entries 15, 21): each pixel is xored with the sprite bit that
falls on it, VF is 1 iff some such bit met a lit pixel and 0 otherwise, and the instruction faults iff a drawn row lies beyond
memory. -/
def Obligations.DrawXorsSpriteAndReportsCollision : Prop :=
  SelectedBy 0xF000 0xD000 (fun w => .drw (xField w) (yField w) (nField w)) ∧
    ∀ (s : State) (x y : RegIx) (n : Height) (rows : Nat), rows = min n.val (32 - (s.readV y).toNat % 32) →
      (0 < rows → 4095 < s.i.toNat + rows - 1 → FaultsWith .memOutOfRange (.drw x y n) s) ∧
        ((rows = 0 ∨ s.i.toNat + rows - 1 ≤ 4095) →
          ∃ t, exec (.drw x y n) s = .next t ∧
            (∀ r c, r < 32 → c < 64 → pixel t.display r c = (pixel s.display r c ^^ drawnBit s x y n r c)) ∧
            (t.readV vf = 1 ∨ t.readV vf = 0) ∧
            (t.readV vf = 1 ↔ ∃ r c, r < 32 ∧ c < 64 ∧ drawnBit s x y n r c = true ∧ pixel s.display r c = true) ∧
            (∀ j, j ≠ vf → t.readV j = s.readV j) ∧ t.pc = s.pc + 2 ∧ Keeps [.pc, .display, .v] s t)

/-- Drawing the same sprite at the same place twice restores the display, and the second draw reports a collision iff the first
turned a pixel on (43_display.md, the laws of DXYN; decisions D3, D18, log entries 15, 21). -/
def Obligations.DrawTwiceRestoresDisplay : Prop :=
  ∀ (s : State) (x y : RegIx) (n : Height), faultCause (.drw x y n) s = .none →
    ∃ t, exec (.drw x y n) s = .next t ∧
      ∀ (u : State) (x' y' : RegIx), u.display = t.display → u.i = s.i → (∀ a, u.readMem a = s.readMem a) →
        (u.readV x').toNat % 64 = (s.readV x).toNat % 64 → (u.readV y').toNat % 32 = (s.readV y).toNat % 32 →
        ∃ w, exec (.drw x' y' n) u = .next w ∧ w.display = s.display ∧
          (w.readV vf = 1 ↔ ∃ r c, r < 32 ∧ c < 64 ∧ pixel s.display r c = false ∧ pixel t.display r c = true)

/-- DXYN touches only the pixels of its rectangle, and on a blank display reports no collision (43_display.md; decisions D3,
D18, log entries 15, 21). -/
def Obligations.DrawStaysInRectangle : Prop :=
  ∀ (s t : State) (x y : RegIx) (n : Height), faultCause (.drw x y n) s = .none → exec (.drw x y n) s = .next t →
    (∀ r c, ¬ ((s.readV y).toNat % 32 ≤ r ∧ r < (s.readV y).toNat % 32 + n.val ∧
        (s.readV x).toNat % 64 ≤ c ∧ c < (s.readV x).toNat % 64 + 8) →
      pixel t.display r c = pixel s.display r c) ∧
    ((∀ r c, pixel s.display r c = false) → t.readV vf = 0)

/-! ### Keypad and timers -/

/-- EX9E and EXA1; a key index above 15 faults (44_keypad_timers.md, decision D7, log entry 16). -/
def Obligations.KeySkips : Prop :=
  SelectedBy 0xF0FF 0xE09E (fun w => .skp (xField w)) ∧ SelectedBy 0xF0FF 0xE0A1 (fun w => .sknp (xField w)) ∧
    ∀ (s : State) (x : RegIx),
      (15 < (s.readV x).toNat →
        FaultsWith .keyIndexOutOfRange (.skp x) s ∧ FaultsWith .keyIndexOutOfRange (.sknp x) s) ∧
      ((s.readV x).toNat ≤ 15 →
        (∃ t, exec (.skp x) s = .next t ∧
          t.pc = (if s.keypad.getLsbD (s.readV x).toNat = true then s.pc + 4 else s.pc + 2) ∧ Keeps [.pc] s t) ∧
        (∃ t, exec (.sknp x) s = .next t ∧
          t.pc = (if s.keypad.getLsbD (s.readV x).toNat = true then s.pc + 2 else s.pc + 4) ∧ Keeps [.pc] s t))

/-- FX07, FX15, FX18 (44_keypad_timers.md section 2). That `tone_on` is a function of the state, and so follows the new `ST` at
once, is decision D15, log entry 13. -/
def Obligations.TimerMoves : Prop :=
  SelectedBy 0xF0FF 0xF007 (fun w => .ldVxDt (xField w)) ∧ SelectedBy 0xF0FF 0xF015 (fun w => .ldDtVx (xField w)) ∧
    SelectedBy 0xF0FF 0xF018 (fun w => .ldStVx (xField w)) ∧
    ∀ (s : State) (x : RegIx),
      (∃ t, exec (.ldVxDt x) s = .next t ∧ t.readV x = s.dt ∧ (∀ j, j ≠ x → t.readV j = s.readV j) ∧
        t.pc = s.pc + 2 ∧ Keeps [.pc, .v] s t) ∧
      (∃ t, exec (.ldDtVx x) s = .next t ∧ t.dt = s.readV x ∧ t.pc = s.pc + 2 ∧ Keeps [.pc, .dt] s t) ∧
      (∃ t, exec (.ldStVx x) s = .next t ∧ t.st = s.readV x ∧ (t.toneOn = true ↔ 0 < (s.readV x).toNat) ∧
        t.pc = s.pc + 2 ∧ Keeps [.pc, .st] s t)

/-- FX0A (44_keypad_timers.md, decision D8, log entry 14): the first execution arms; then it stays while no key has risen since
the last look; else it takes the least risen key and goes on. -/
def Obligations.KeyWait : Prop :=
  SelectedBy 0xF0FF 0xF00A (fun w => .ldVxK (xField w)) ∧
    ∀ (s : State) (x : RegIx),
      (s.wait = false ∨ (∀ k : KeyIx, ¬ (s.keypad.getLsbD k.val = true ∧ s.keyPrev.getLsbD k.val = false)) →
        ∃ t, exec (.ldVxK x) s = .next t ∧ t.wait = true ∧ t.keyPrev = s.keypad ∧ Keeps [.wait, .keyPrev] s t) ∧
      (∀ k : KeyIx, s.wait = true → s.keypad.getLsbD k.val = true → s.keyPrev.getLsbD k.val = false →
        (∀ j : KeyIx, j < k → ¬ (s.keypad.getLsbD j.val = true ∧ s.keyPrev.getLsbD j.val = false)) →
        ∃ t, exec (.ldVxK x) s = .next t ∧ (t.readV x).toNat = k.val ∧ (∀ j, j ≠ x → t.readV j = s.readV j) ∧
          t.wait = false ∧ t.keyPrev = s.keypad ∧ t.pc = s.pc + 2 ∧ Keeps [.pc, .v, .wait, .keyPrev] s t)

/-! ### The other agents -/

/-- `Tick` counts both timers down to 0, reports the tone after the decrement, touches nothing else, and is not enabled once
Halted (60_exceptions.md, decision D11, log entry 19). -/
def Obligations.TickCountsDown : Prop :=
  ∀ s : State,
    (s.run ≠ .halted →
      ∃ t, act .tick s = .next t ∧ t.dt.toNat = s.dt.toNat - 1 ∧ t.st.toNat = s.st.toNat - 1 ∧ Keeps [.dt, .st] s t ∧
        emitted .tick s = [.toneReport t.toneOn]) ∧
    (s.run = .halted → act .tick s = .fault (.notEnabled .tick) ∧ emitted .tick s = [])

/-- `KeyDown` and `KeyUp` change one key of `keypad` and nothing else (60_exceptions.md, decision D26, log entry 22). -/
def Obligations.KeyEventsChangeOneKey : Prop :=
  ∀ (s : State) (k : KeyIx), s.run ≠ .halted →
    (∃ t, act (.input (.keyDown k)) s = .next t ∧ t.keypad.getLsbD k.val = true ∧
      (∀ j : KeyIx, j ≠ k → t.keypad.getLsbD j.val = s.keypad.getLsbD j.val) ∧ Keeps [.keypad] s t) ∧
    (∃ t, act (.input (.keyUp k)) s = .next t ∧ t.keypad.getLsbD k.val = false ∧
      (∀ j : KeyIx, j ≠ k → t.keypad.getLsbD j.val = s.keypad.getLsbD j.val) ∧ Keeps [.keypad] s t)

/-- The table of `PauseToggle` and `Quit` (60_exceptions.md, decision D22, log entry 22). -/
def Obligations.PauseAndQuitTable : Prop :=
  ∀ s : State,
    (∃ t, act (.input .pauseToggle) s = .next t ∧ Keeps [.run] s t ∧ (s.run = .running → t.run = .paused) ∧
      (s.run = .paused → t.run = .running) ∧ (s.run = .halted → t.run = .halted)) ∧
    (∃ t, act (.input .quit) s = .next t ∧ Keeps [.run] s t ∧ t.run = .halted)

/-- The Display Sink sees the whole display, and its look changes nothing (60_exceptions.md section 4; that the look is an
action is log entry 25). -/
def Obligations.ObservationChangesNothing : Prop :=
  ∀ s : State, act .observe s = .next s ∧ emitted .observe s = [.displayFrame s.display]

/-- The documented schedule, one frame after another (70_reset_and_hazards.md section 5, decision D12; the form is log entry
25). A frame begins when the one before it is over, and takes its pending inputs first. If they leave the machine Running, the
burst of `CYCLES_PER_TICK` steps (at least one), one observation and one `Tick` follow; if Paused, the observation and the
`Tick` alone; if Halted, the observation alone. A burst that a fault halts ends there, and the observation follows. After a
whole frame the next one is due, with the inputs pending then. -/
def Obligations.ScheduledFramesRunInOrder : Prop :=
  ∀ (s s1 : State) (d : Schedule), s.schedule = some d → s.agenda = [] → s.run ≠ .halted →
    actAll ((d.pending.headD []).map Action.input) s = .next s1 →
    0 < d.cyclesPerTick.val ∧
    (∀ t, s1.run = .running →
      actAll (List.replicate d.cyclesPerTick.val .step ++ [.observe, .tick]) s1 = .next t →
      ∃ u, Sys2Proof.core.run ((d.pending.headD []).length + d.cyclesPerTick.val + 2) s = .next u ∧
        Keeps [.agenda, .schedule] t u ∧ u.agenda = [] ∧ u.schedule = some { d with pending := d.pending.tail }) ∧
    (s1.run = .paused →
      ∃ t u, actAll [.observe, .tick] s1 = .next t ∧
        Sys2Proof.core.run ((d.pending.headD []).length + 2) s = .next u ∧
        Keeps [.agenda, .schedule] t u ∧ u.agenda = [] ∧ u.schedule = some { d with pending := d.pending.tail }) ∧
    (s1.run = .halted → RunsTo ((d.pending.headD []).length + 1) s s1) ∧
    (∀ (k : Nat) (t : State), s1.run = .running → k ≤ d.cyclesPerTick.val → actAll (List.replicate k .step) s1 = .next t →
      t.run = .halted → RunsTo ((d.pending.headD []).length + k + 1) s t)

/-- The schedule repeats until `RUN = Halted`: once Halted no frame begins, and what is left of the one that halted runs out
(70_reset_and_hazards.md section 5, log entry 25). -/
def Obligations.ScheduleEndsWhenHalted : Prop :=
  ∀ (s : State) (d : Schedule), s.schedule = some d → s.run = .halted →
    (step s = .fault (.notEnabled .step) ∧ s.nextAction = .step) ∨
      ∃ t, step s = .next t ∧ t.schedule = some d ∧ t.agenda.length < s.agenda.length

/-! ### Reset, invariants, whole-machine rules -/

/-- The launch state, a function of `FONT` and `ROM` (10_state.md section 7, decisions D21, D28, log entry 27; the empty agenda,
the absent schedule and the count of draws are the model's own, log entries 2, 4, 25), and no launch state for an image that is
too large. -/
def Obligations.LoaderGivesResetState : Prop :=
  ∀ (cfg : Config) (font rom : List Byte), font.length = 80 →
    (3584 < rom.length → loader cfg font rom = none) ∧
      (rom.length ≤ 3584 →
        ∃ s, loader cfg font rom = some s ∧
          (∀ a, a < 80 → s.readMem a = font.getD a 0) ∧ (∀ a, 80 ≤ a → a < 512 → s.readMem a = 0) ∧
          (∀ j, j < rom.length → s.readMem (512 + j) = rom.getD j 0) ∧
          (∀ a, 512 + rom.length ≤ a → a < 4096 → s.readMem a = 0) ∧
          (∀ y x, pixel s.display y x = false) ∧ (∀ x, s.readV x = 0) ∧ s.i = 0 ∧ s.pc = 0x200 ∧
          (∀ j : Fin 12, s.stack[j] = 0) ∧ s.sp = 0 ∧ s.dt = 0 ∧ s.st = 0 ∧ s.keypad = 0 ∧ s.run = .running ∧
          s.fault = .none ∧ s.wait = false ∧ s.keyPrev = 0 ∧ s.cfg = cfg ∧ s.agenda = [] ∧
          s.schedule = none ∧ s.draws = 0 ∧ s.Inv)

/-- `State.reset` is the launch state of the default parameters, the default font (log entry 6) and an empty image. -/
def Obligations.ResetIsDefaultLaunch : Prop := loader Config.default defaultFont [] = some State.reset

/-- The invariant of 10_state.md section 8 holds at reset (decisions D21, D28; log entries 8, 27). -/
def Obligations.InvariantAtReset : Prop := State.reset.Inv

/-- Every action of every agent keeps the invariant of 10_state.md section 8: memory in canonical form, `pc` and the stacked
addresses at most 0x10FE, a fault only when Halted, a key wait only at an FX0A. -/
def Obligations.StepKeepsInvariant : Prop := ∀ s t : State, s.Inv → step s = .next t → t.Inv

/-- `FAULT` is sticky (10_state.md section 5; decision D2, log entry 1). That no action changes the quirk parameters is the
model's own choice of place for them, log entry 5. -/
def Obligations.FaultStickyConfigFixed : Prop :=
  ∀ s t : State, s.Inv → step s = .next t → (s.fault ≠ .none → t.fault = s.fault) ∧ t.cfg = s.cfg

/-- A run ends only by `Quit` or by a fault (70_reset_and_hazards.md section 3; decisions D2, D22, log entries 1, 22). -/
def Obligations.RunEndsOnlyByQuitOrFault : Prop :=
  ∀ s t : State, s.Inv → s.run ≠ .halted → step s = .next t → t.run = .halted →
    (s.nextAction = .input .quit ∧ t.fault = .none) ∨ (s.nextAction = .step ∧ t.fault ≠ .none)

/-- Only FX33 and FX55 write memory, and no action of another agent does (10_state.md sections 1 and 6). -/
def Obligations.MemoryWrittenOnlyByStores : Prop :=
  ∀ (s t : State) (a : Nat), step s = .next t → t.readMem a ≠ s.readMem a →
    s.nextAction = .step ∧ ∃ x, decodeWord s.fetchWord = .ldB x ∨ decodeWord s.fetchWord = .ldMemVx x
end

