-- ==== Sys2Proof/Laws/Decode.lean ====
section
/-! SUPPORT. Laws of the decoder and the encoder: fields of the formats, the table's rows exclude each other, and a word that
selects a row decodes to it. -/

namespace Sys2Proof

/-! ### Nibbles and fields of the formats -/

@[simp] theorem nibble_toNat (k : Fin 16) : (nibble k).toNat = k.val := by
  simp [nibble]

@[simp] theorem nibble_toFin (k : Fin 16) : (nibble k).toFin = k := by
  apply Fin.ext; simp [nibble]

theorem nibble_of_toFin (b : BitVec 4) : nibble b.toFin = b := by
  apply BitVec.eq_of_toNat_eq; simp [nibble]

theorem opField_toNat (w : Word) : (opField w).toNat = w.toNat / 4096 := by
  have := w.isLt
  simp [opField, BitVec.extractLsb'_toNat, Nat.shiftRight_eq_div_pow]; omega

theorem xField_val (w : Word) : (xField w).val = w.toNat / 256 % 16 := by
  simp [xField, Nat.shiftRight_eq_div_pow]

theorem yField_val (w : Word) : (yField w).val = w.toNat / 16 % 16 := by
  simp [yField, Nat.shiftRight_eq_div_pow]

theorem nField_val (w : Word) : (nField w).val = w.toNat % 16 := by
  simp [nField]

theorem nnField_toNat (w : Word) : (nnField w).toNat = w.toNat % 256 := by
  simp [nnField, BitVec.extractLsb'_toNat]

theorem nnnField_toNat (w : Word) : (nnnField w).toNat = w.toNat % 4096 := by
  simp [nnnField, BitVec.extractLsb'_toNat]

theorem fmtNNN_toNat (f : BitVec 4) (nnn : Addr12) : (fmtNNN f nnn).toNat = f.toNat * 4096 + nnn.toNat := by
  have := nnn.isLt
  simp only [fmtNNN, BitVec.toNat_append]
  rw [← Nat.shiftLeft_add_eq_or_of_lt (by simpa using this)]; simp [Nat.shiftLeft_eq]

theorem fmtXNN_toNat (f : BitVec 4) (x : RegIx) (nn : Byte) :
    (fmtXNN f x nn).toNat = f.toNat * 4096 + x.val * 256 + nn.toNat := by
  have := nn.isLt
  have hx := x.isLt
  simp only [fmtXNN, BitVec.toNat_append]
  rw [← Nat.shiftLeft_add_eq_or_of_lt (by simpa using this), ← Nat.shiftLeft_add_eq_or_of_lt (by simp)]
  simp [Nat.shiftLeft_eq]; omega

theorem fmtXYN_toNat (f : BitVec 4) (x y : RegIx) (n : BitVec 4) :
    (fmtXYN f x y n).toNat = f.toNat * 4096 + x.val * 256 + y.val * 16 + n.toNat := by
  have := n.isLt
  simp only [fmtXYN, BitVec.toNat_append]
  rw [← Nat.shiftLeft_add_eq_or_of_lt (by simpa using this), ← Nat.shiftLeft_add_eq_or_of_lt (by simp),
    ← Nat.shiftLeft_add_eq_or_of_lt (by simp)]
  simp [Nat.shiftLeft_eq]; omega

theorem fmtX_toNat (f : BitVec 4) (x : RegIx) (s : Byte) :
    (fmtX f x s).toNat = f.toNat * 4096 + x.val * 256 + s.toNat := fmtXNN_toNat f x s

/-! ### The fields of a format are its operands -/

@[simp] theorem nnnField_fmtNNN (f : BitVec 4) (nnn : Addr12) : nnnField (fmtNNN f nnn) = nnn := by
  have := nnn.isLt
  apply BitVec.eq_of_toNat_eq
  simp only [nnnField_toNat, fmtNNN_toNat]; omega

@[simp] theorem xField_fmtXNN (f : BitVec 4) (x : RegIx) (nn : Byte) : xField (fmtXNN f x nn) = x := by
  have := nn.isLt
  apply Fin.ext
  simp only [xField_val, fmtXNN_toNat]; omega

@[simp] theorem nnField_fmtXNN (f : BitVec 4) (x : RegIx) (nn : Byte) : nnField (fmtXNN f x nn) = nn := by
  have := nn.isLt
  apply BitVec.eq_of_toNat_eq
  simp only [nnField_toNat, fmtXNN_toNat]; omega

@[simp] theorem xField_fmtXYN (f : BitVec 4) (x y : RegIx) (n : BitVec 4) : xField (fmtXYN f x y n) = x := by
  have := n.isLt
  apply Fin.ext
  simp only [xField_val, fmtXYN_toNat]; omega

@[simp] theorem yField_fmtXYN (f : BitVec 4) (x y : RegIx) (n : BitVec 4) : yField (fmtXYN f x y n) = y := by
  have := n.isLt
  apply Fin.ext
  simp only [yField_val, fmtXYN_toNat]; omega

@[simp] theorem nField_fmtXYN (f : BitVec 4) (x y : RegIx) (n : Height) : nField (fmtXYN f x y (nibble n)) = n := by
  apply Fin.ext
  simp only [nField_val, fmtXYN_toNat, nibble_toNat]; omega

@[simp] theorem xField_fmtX (f : BitVec 4) (x : RegIx) (s : Byte) : xField (fmtX f x s) = x := xField_fmtXNN f x s

/-! ### Masks as arithmetic -/

theorem and_F000_toNat (w : Word) : (w &&& 0xF000#16).toNat = w.toNat / 4096 * 4096 := by
  have h := w.isLt
  have e : w &&& 0xF000#16 = (w >>> 12) <<< 12 := by
    ext i hi; interval_cases i <;> simp
  rw [e]; simp [Nat.shiftRight_eq_div_pow, Nat.shiftLeft_eq]; omega

theorem and_000F_toNat (w : Word) : (w &&& 0x000F#16).toNat = w.toNat % 16 := by
  simpa using Nat.and_two_pow_sub_one_eq_mod w.toNat 4

theorem and_00FF_toNat (w : Word) : (w &&& 0x00FF#16).toNat = w.toNat % 256 := by
  simpa using Nat.and_two_pow_sub_one_eq_mod w.toNat 8

/-- The low part of a mask and its top nibble do not overlap. -/
theorem and_F000_or (w : Word) (m : Word) (hm : m.toNat < 4096) :
    (w &&& (0xF000#16 ||| m)).toNat = w.toNat / 4096 * 4096 + (w &&& m).toNat := by
  have hlt : (w &&& m).toNat < 2 ^ 12 := by
    rw [BitVec.toNat_and]; exact lt_of_le_of_lt Nat.and_le_right hm
  have e : w &&& (0xF000#16 ||| m) = (w &&& 0xF000#16) ||| (w &&& m) := by
    ext i hi; simp [Bool.and_or_distrib_left]
  rw [e, BitVec.toNat_or, and_F000_toNat]
  have := Nat.shiftLeft_add_eq_or_of_lt hlt (w.toNat / 4096)
  rw [Nat.shiftLeft_eq] at this
  exact this.symm

theorem and_F00F_toNat (w : Word) : (w &&& 0xF00F#16).toNat = w.toNat / 4096 * 4096 + w.toNat % 16 := by
  rw [← and_000F_toNat]; exact and_F000_or w 0x000F (by decide)

theorem and_F0FF_toNat (w : Word) : (w &&& 0xF0FF#16).toNat = w.toNat / 4096 * 4096 + w.toNat % 256 := by
  rw [← and_00FF_toNat]; exact and_F000_or w 0x00FF (by decide)

theorem and_FFFF (w : Word) : w &&& 0xFFFF#16 = w := by
  ext i hi; interval_cases i <;> simp

/-! ### The fixed digits of a format survive its mask (rules R72, R76) -/

theorem fmtNNN_row (f : BitVec 4) (nnn : Addr12) : fmtNNN f nnn &&& 0xF000#16 = fmtNNN f 0 := by
  have := nnn.isLt
  apply BitVec.eq_of_toNat_eq
  simp only [and_F000_toNat, fmtNNN_toNat, BitVec.ofNat_eq_ofNat, BitVec.toNat_ofNat]; omega

theorem fmtXNN_row (f : BitVec 4) (x : RegIx) (nn : Byte) : fmtXNN f x nn &&& 0xF000#16 = fmtXNN f 0 0 := by
  have := nn.isLt
  have := x.isLt
  apply BitVec.eq_of_toNat_eq
  simp only [and_F000_toNat, fmtXNN_toNat, BitVec.ofNat_eq_ofNat, BitVec.toNat_ofNat]; omega

theorem fmtXYN_row (f : BitVec 4) (x y : RegIx) (n : BitVec 4) : fmtXYN f x y n &&& 0xF000#16 = fmtXYN f 0 0 0 := by
  have := n.isLt
  have := x.isLt
  have := y.isLt
  apply BitVec.eq_of_toNat_eq
  simp only [and_F000_toNat, fmtXYN_toNat, BitVec.ofNat_eq_ofNat, BitVec.toNat_ofNat]; omega

theorem fmtXY_row (f : BitVec 4) (x y : RegIx) (n : BitVec 4) : fmtXYN f x y n &&& 0xF00F#16 = fmtXYN f 0 0 n := by
  have := n.isLt
  have := x.isLt
  have := y.isLt
  apply BitVec.eq_of_toNat_eq
  simp only [and_F00F_toNat, fmtXYN_toNat]; omega

theorem fmtX_row (f : BitVec 4) (x : RegIx) (s : Byte) : fmtX f x s &&& 0xF0FF#16 = fmtX f 0 s := by
  have := s.isLt
  have := x.isLt
  apply BitVec.eq_of_toNat_eq
  simp only [and_F0FF_toNat, fmtX_toNat]; omega

/-! ### The rows of the opcode map (rules R76, R77) -/

/-- Two rows that no word selects together (rule R77): they fix some bit differently. -/
def rowsExclude (r q : OpcodeRow) : Bool := (r.mask &&& q.mask &&& (r.pattern ^^^ q.pattern)) != 0

theorem opcodeTable_excludes : opcodeTable.Pairwise (fun r q => rowsExclude r q = true) := by
  decide

theorem not_selects_of_rowsExclude {r q : OpcodeRow} {w : Word} (h : rowsExclude r q = true) (hr : r.selects w = true) :
    q.selects w = false := by
  by_contra hq
  simp only [Bool.not_eq_false] at hq
  simp only [OpcodeRow.selects, beq_iff_eq] at hr hq
  simp only [rowsExclude, bne_iff_ne, ne_eq] at h
  apply h
  rw [← hr, ← hq]
  ext i hi
  simp
  cases w[i] <;> cases r.mask[i] <;> cases q.mask[i] <;> simp

theorem find?_of_pairwise {α : Type} {p : α → Bool} {l : List α} (hl : l.Pairwise (fun a b => p a = true → p b = false))
    {a : α} (ha : a ∈ l) (hp : p a = true) : l.find? p = some a := by
  induction l with
  | nil => cases ha
  | cons b t ih =>
    rw [List.pairwise_cons] at hl
    rcases List.mem_cons.1 ha with rfl | hat
    · simp [hp]
    · cases hb : p b with
      | false => simp [hb, ih hl.2 hat]
      | true => simp [hl.1 a hat hb] at hp

/-- A word that selects a row of the opcode map decodes to that row's instruction (rules R76, R77). -/
theorem decodeWord_of_row {r : OpcodeRow} {w : Word} (hr : r ∈ opcodeTable) (hw : r.selects w = true) :
    decodeWord w = r.build w := by
  have hp : opcodeTable.Pairwise (fun a b => a.selects w = true → b.selects w = false) :=
    opcodeTable_excludes.imp fun h hs => not_selects_of_rowsExclude h hs
  simp only [decodeWord, find?_of_pairwise hp hr hw]

/-- A word that selects no row decodes to `UNREC` (rule R78). -/
theorem decodeWord_of_noRow {w : Word} (h : ∀ r ∈ opcodeTable, r.selects w = false) : decodeWord w = .unrec w := by
  have : opcodeTable.find? (fun r => r.selects w) = none := by
    rw [List.find?_eq_none]; intro r hr; simp [h r hr]
  simp only [decodeWord, this]

/-- What the decoder can answer: a row's instruction, or `UNREC`. -/
theorem decodeWord_cases (w : Word) :
    (∃ r ∈ opcodeTable, r.selects w = true ∧ decodeWord w = r.build w) ∨
      ((∀ r ∈ opcodeTable, r.selects w = false) ∧ decodeWord w = .unrec w) := by
  by_cases h : ∃ r ∈ opcodeTable, r.selects w = true
  · obtain ⟨r, hr, hw⟩ := h
    exact .inl ⟨r, hr, hw, decodeWord_of_row hr hw⟩
  · have h' : ∀ r ∈ opcodeTable, r.selects w = false := by
      intro r hr; by_contra hs; exact h ⟨r, hr, by simpa using hs⟩
    exact .inr ⟨h', decodeWord_of_noRow h'⟩

/-! ### Bytes and words (rule R52) -/

theorem wordOfBytes_toNat (b0 b1 : Byte) : (wordOfBytes b0 b1).toNat = b0.toNat * 256 + b1.toNat := by
  have := b1.isLt
  simp only [wordOfBytes, BitVec.toNat_append]
  rw [← Nat.shiftLeft_add_eq_or_of_lt (by simpa using this)]; simp [Nat.shiftLeft_eq]

theorem highByte_toNat (w : Word) : (highByte w).toNat = w.toNat / 256 := by
  have := w.isLt
  simp [highByte, BitVec.extractLsb'_toNat, Nat.shiftRight_eq_div_pow]; omega

theorem lowByte_toNat (w : Word) : (lowByte w).toNat = w.toNat % 256 := by
  simp [lowByte, BitVec.extractLsb'_toNat]

/-- The bytes a word is stored as are fetched as that word. -/
@[simp] theorem wordOfBytes_bytesOfWord (w : Word) : wordOfBytes (highByte w) (lowByte w) = w := by
  apply BitVec.eq_of_toNat_eq
  rw [wordOfBytes_toNat, highByte_toNat, lowByte_toNat]; omega

theorem decodeBytes_bytesOfWord (w : Word) (rest : List Byte) :
    decodeBytes (bytesOfWord w ++ rest) = .ok (decodeWord w, rest) := by
  simp [bytesOfWord, decodeBytes]

end Sys2Proof
end

