-- ==== Sys2Proof/Laws/Memory.lean ====
section
/-! SUPPORT. Laws of memory: read after write, every other byte kept, the canonical form kept by every operation, and equal
contents are equal data. -/

namespace Sys2Proof.Machine

/-! ### The canonical form -/

theorem Memory.wfFrom_cons {lo k : Nat} {b : Byte} {t : Memory} :
    Memory.wfFrom lo ((k, b) :: t) = true ↔
      lo ≤ k ∧ k < 4096 ∧ b ≠ Memory.unlisted k ∧ Memory.wfFrom (k + 1) t = true := by
  simp [Memory.wfFrom, and_assoc]

theorem Memory.wfFrom_mono {m : Memory} {lo lo' : Nat} (h : Memory.wfFrom lo m = true) (hl : lo' ≤ lo) :
    Memory.wfFrom lo' m = true := by
  cases m with
  | nil => rfl
  | cons c t =>
    rw [Memory.wfFrom_cons] at h ⊢
    exact ⟨hl.trans h.1, h.2⟩

/-- Below the first cell every address is unlisted. -/
theorem Memory.read_below {m : Memory} {a lo : Nat} (h : Memory.wfFrom lo m = true) (ha : a < lo) :
    m.read a = Memory.unlisted a := by
  induction m generalizing lo with
  | nil => rfl
  | cons c t ih =>
    obtain ⟨k, v⟩ := c
    rw [Memory.wfFrom_cons] at h
    have hk : k ≠ a := by omega
    simp only [Memory.read, hk, if_false]
    exact ih h.2.2.2 (by omega)

/-- Beyond the machine's memory every address is unlisted. -/
theorem Memory.read_beyond {m : Memory} {a lo : Nat} (h : Memory.wfFrom lo m = true) (ha : 4096 ≤ a) :
    m.read a = Memory.unlisted a := by
  induction m generalizing lo with
  | nil => rfl
  | cons c t ih =>
    obtain ⟨k, v⟩ := c
    rw [Memory.wfFrom_cons] at h
    have hk : k ≠ a := by omega
    simp only [Memory.read, hk, if_false]
    exact ih h.2.2.2

/-! ### One byte -/

theorem Memory.read_write_same {m : Memory} {lo : Nat} (h : Memory.wfFrom lo m = true) (a : Nat) (b : Byte) :
    (m.write a b).read a = b := by
  induction m generalizing lo with
  | nil =>
    unfold Memory.write
    split
    · simp_all [Memory.read]
    · simp [Memory.read]
  | cons c t ih =>
    obtain ⟨k, v⟩ := c
    have h' := Memory.wfFrom_cons.1 h
    unfold Memory.write
    split
    · rename_i hlt
      split
      · rename_i hb
        rw [hb]
        exact Memory.read_below (Memory.wfFrom_cons.2 ⟨hlt, h'.2⟩) (Nat.lt_succ_self a)
      · simp [Memory.read]
    · split
      · rename_i hk
        subst hk
        split
        · rename_i hb
          rw [hb]
          exact Memory.read_below h'.2.2.2 (Nat.lt_succ_self a)
        · simp [Memory.read]
      · rename_i hk
        have hk' : k ≠ a := fun e => hk e.symm
        simp only [Memory.read, hk', if_false]
        exact ih h'.2.2.2

theorem Memory.read_write_other (m : Memory) {a c : Nat} (b : Byte) (hc : c ≠ a) : (m.write a b).read c = m.read c := by
  induction m with
  | nil =>
    unfold Memory.write
    split
    · rfl
    · simp [Memory.read, hc.symm]
  | cons d t ih =>
    obtain ⟨k, v⟩ := d
    unfold Memory.write
    split
    · split
      · rfl
      · simp [Memory.read, hc.symm]
    · split
      · rename_i hk
        subst hk
        split <;> simp [Memory.read, hc.symm]
      · simp only [Memory.read, ih]

theorem Memory.write_wfFrom {m : Memory} {lo : Nat} (h : Memory.wfFrom lo m = true) {a : Nat} (b : Byte) (hlo : lo ≤ a)
    (ha : a < 4096) : Memory.wfFrom lo (m.write a b) = true := by
  induction m generalizing lo with
  | nil =>
    unfold Memory.write
    split
    · rfl
    · rename_i hb
      exact Memory.wfFrom_cons.2 ⟨hlo, ha, hb, rfl⟩
  | cons c t ih =>
    obtain ⟨k, v⟩ := c
    have h' := Memory.wfFrom_cons.1 h
    unfold Memory.write
    split
    · rename_i hlt
      split
      · exact h
      · rename_i hb
        exact Memory.wfFrom_cons.2 ⟨hlo, ha, hb, Memory.wfFrom_cons.2 ⟨hlt, h'.2⟩⟩
    · split
      · rename_i hk
        subst hk
        split
        · exact Memory.wfFrom_mono h'.2.2.2 (by omega)
        · rename_i hb
          exact Memory.wfFrom_cons.2 ⟨hlo, ha, hb, h'.2.2.2⟩
      · exact Memory.wfFrom_cons.2 ⟨h'.1, h'.2.1, h'.2.2.1, ih h'.2.2.2 (by omega)⟩

/-! ### Several bytes -/

/-- Every store inside memory keeps the canonical form. -/
theorem Memory.writeBytes_wf {m : Memory} (h : m.wf = true) (bs : List Byte) {a : Nat} (ha : a + bs.length ≤ 4096) :
    (m.writeBytes a bs).wf = true := by
  induction bs generalizing m a with
  | nil => exact h
  | cons b bs ih =>
    rw [List.length_cons] at ha
    exact ih (Memory.write_wfFrom h b (Nat.zero_le a) (by omega)) (by omega)

theorem Memory.read_writeBytes_other (m : Memory) (bs : List Byte) {a c : Nat} (hc : c < a ∨ a + bs.length ≤ c) :
    (m.writeBytes a bs).read c = m.read c := by
  induction bs generalizing m a with
  | nil => rfl
  | cons b bs ih =>
    rw [List.length_cons] at hc
    rw [Memory.writeBytes, ih _ (by omega), Memory.read_write_other m b (by omega)]

theorem Memory.read_writeBytes_same {m : Memory} (h : m.wf = true) (bs : List Byte) {a : Nat}
    (ha : a + bs.length ≤ 4096) {j : Nat} (hj : j < bs.length) : (m.writeBytes a bs).read (a + j) = bs[j] := by
  induction bs generalizing m a j with
  | nil => exact absurd hj (Nat.not_lt_zero j)
  | cons b bs ih =>
    rw [List.length_cons] at ha hj
    have hw := Memory.write_wfFrom h b (Nat.zero_le a) (by omega)
    cases j with
    | zero =>
      rw [Memory.writeBytes, Memory.read_writeBytes_other _ _ (by omega)]
      exact Memory.read_write_same h a b
    | succ j =>
      have := ih (m := m.write a b) hw (a := a + 1) (by omega) (j := j) (by omega)
      rw [Memory.writeBytes, show a + (j + 1) = a + 1 + j by omega, this]
      rfl

/-- What any byte reads as after a store (20_memory.md rule R53). -/
theorem Memory.read_writeBytes {m : Memory} (h : m.wf = true) (bs : List Byte) {a : Nat} (ha : a + bs.length ≤ 4096)
    (c : Nat) : (m.writeBytes a bs).read c = if a ≤ c ∧ c < a + bs.length then bs.getD (c - a) 0 else m.read c := by
  split
  · rename_i hc
    have hj : c - a < bs.length := by omega
    have := Memory.read_writeBytes_same h bs ha hj
    rw [show a + (c - a) = c by omega] at this
    rw [this, List.getD_eq_getElem _ _ hj]
  · exact Memory.read_writeBytes_other m bs (by omega)

@[simp] theorem Memory.readBytes_length (m : Memory) (a n : Nat) : (m.readBytes a n).length = n := by
  induction n generalizing a with
  | zero => rfl
  | succ n ih => simp [Memory.readBytes, ih]

theorem Memory.readBytes_getElem (m : Memory) (a n j : Nat) (hj : j < n) :
    (m.readBytes a n)[j]'(by simpa using hj) = m.read (a + j) := by
  induction n generalizing a j with
  | zero => exact absurd hj (Nat.not_lt_zero j)
  | succ n ih =>
    cases j with
    | zero => simp [Memory.readBytes]
    | succ j =>
      simp only [Memory.readBytes, List.getElem_cons_succ]
      rw [ih (a + 1) j (by omega), show a + 1 + j = a + (j + 1) by omega]

/-! ### Equal contents are equal data -/

theorem Memory.eq_of_read_eq {m m' : Memory} {lo : Nat} (h : Memory.wfFrom lo m = true) (h' : Memory.wfFrom lo m' = true)
    (he : ∀ a, lo ≤ a → m.read a = m'.read a) : m = m' := by
  induction m generalizing m' lo with
  | nil =>
    cases m' with
    | nil => rfl
    | cons c t =>
      obtain ⟨k, v⟩ := c
      have hc := Memory.wfFrom_cons.1 h'
      have := he k hc.1
      simp only [Memory.read, if_true] at this
      exact absurd this.symm hc.2.2.1
  | cons c t ih =>
    obtain ⟨k, v⟩ := c
    have hc := Memory.wfFrom_cons.1 h
    cases m' with
    | nil =>
      have := he k hc.1
      simp only [Memory.read, if_true] at this
      exact absurd this hc.2.2.1
    | cons d t' =>
      obtain ⟨k', v'⟩ := d
      have hd := Memory.wfFrom_cons.1 h'
      have hk : k = k' := by
        rcases Nat.lt_trichotomy k k' with hlt | heq | hgt
        · have := he k hc.1
          rw [Memory.read_below (Memory.wfFrom_cons.2 ⟨hlt, hd.2⟩) (Nat.lt_succ_self k)] at this
          simp only [Memory.read, if_true] at this
          exact absurd this hc.2.2.1
        · exact heq
        · have := he k' hd.1
          rw [Memory.read_below (Memory.wfFrom_cons.2 ⟨hgt, hc.2⟩) (Nat.lt_succ_self k')] at this
          simp only [Memory.read, if_true] at this
          exact absurd this.symm hd.2.2.1
      subst hk
      have hv : v = v' := by
        have := he k hc.1
        simpa only [Memory.read, if_true] using this
      subst hv
      have ht : t = t' := by
        refine ih hc.2.2.2 hd.2.2.2 fun a ha => ?_
        have hka : k ≠ a := by omega
        have := he a (by omega)
        simpa only [Memory.read, hka, if_false] using this
      rw [ht]

end Sys2Proof.Machine
end

