-- ==== Sys2Proof/Laws/State.lean ====
section
/-! SUPPORT. One lemma per field per update of the state, so that no proof unfolds a record update. -/

namespace Sys2Proof.Machine

/-! ### `advance` -/

@[simp] theorem State.advance_mem (s : State) : s.advance.mem = s.mem := rfl
@[simp] theorem State.advance_display (s : State) : s.advance.display = s.display := rfl
@[simp] theorem State.advance_v (s : State) : s.advance.v = s.v := rfl
@[simp] theorem State.advance_i (s : State) : s.advance.i = s.i := rfl
@[simp] theorem State.advance_pc (s : State) : s.advance.pc = s.pc + 2 := rfl
@[simp] theorem State.advance_stack (s : State) : s.advance.stack = s.stack := rfl
@[simp] theorem State.advance_sp (s : State) : s.advance.sp = s.sp := rfl
@[simp] theorem State.advance_dt (s : State) : s.advance.dt = s.dt := rfl
@[simp] theorem State.advance_st (s : State) : s.advance.st = s.st := rfl
@[simp] theorem State.advance_keypad (s : State) : s.advance.keypad = s.keypad := rfl
@[simp] theorem State.advance_run (s : State) : s.advance.run = s.run := rfl
@[simp] theorem State.advance_fault (s : State) : s.advance.fault = s.fault := rfl
@[simp] theorem State.advance_wait (s : State) : s.advance.wait = s.wait := rfl
@[simp] theorem State.advance_keyPrev (s : State) : s.advance.keyPrev = s.keyPrev := rfl
@[simp] theorem State.advance_cfg (s : State) : s.advance.cfg = s.cfg := rfl
@[simp] theorem State.advance_draws (s : State) : s.advance.draws = s.draws := rfl
@[simp] theorem State.advance_agenda (s : State) : s.advance.agenda = s.agenda := rfl
@[simp] theorem State.advance_schedule (s : State) : s.advance.schedule = s.schedule := rfl

/-! ### `jumpTo` -/

@[simp] theorem State.jumpTo_mem (s : State) (w : Word) : (s.jumpTo w).mem = s.mem := rfl
@[simp] theorem State.jumpTo_display (s : State) (w : Word) : (s.jumpTo w).display = s.display := rfl
@[simp] theorem State.jumpTo_v (s : State) (w : Word) : (s.jumpTo w).v = s.v := rfl
@[simp] theorem State.jumpTo_i (s : State) (w : Word) : (s.jumpTo w).i = s.i := rfl
@[simp] theorem State.jumpTo_pc (s : State) (w : Word) : (s.jumpTo w).pc = w := rfl
@[simp] theorem State.jumpTo_stack (s : State) (w : Word) : (s.jumpTo w).stack = s.stack := rfl
@[simp] theorem State.jumpTo_sp (s : State) (w : Word) : (s.jumpTo w).sp = s.sp := rfl
@[simp] theorem State.jumpTo_dt (s : State) (w : Word) : (s.jumpTo w).dt = s.dt := rfl
@[simp] theorem State.jumpTo_st (s : State) (w : Word) : (s.jumpTo w).st = s.st := rfl
@[simp] theorem State.jumpTo_keypad (s : State) (w : Word) : (s.jumpTo w).keypad = s.keypad := rfl
@[simp] theorem State.jumpTo_run (s : State) (w : Word) : (s.jumpTo w).run = s.run := rfl
@[simp] theorem State.jumpTo_fault (s : State) (w : Word) : (s.jumpTo w).fault = s.fault := rfl
@[simp] theorem State.jumpTo_wait (s : State) (w : Word) : (s.jumpTo w).wait = s.wait := rfl
@[simp] theorem State.jumpTo_keyPrev (s : State) (w : Word) : (s.jumpTo w).keyPrev = s.keyPrev := rfl
@[simp] theorem State.jumpTo_cfg (s : State) (w : Word) : (s.jumpTo w).cfg = s.cfg := rfl
@[simp] theorem State.jumpTo_draws (s : State) (w : Word) : (s.jumpTo w).draws = s.draws := rfl
@[simp] theorem State.jumpTo_agenda (s : State) (w : Word) : (s.jumpTo w).agenda = s.agenda := rfl
@[simp] theorem State.jumpTo_schedule (s : State) (w : Word) : (s.jumpTo w).schedule = s.schedule := rfl

/-! ### `skipIf` -/

@[simp] theorem State.skipIf_mem (s : State) (c : Bool) : (s.skipIf c).mem = s.mem := rfl
@[simp] theorem State.skipIf_display (s : State) (c : Bool) : (s.skipIf c).display = s.display := rfl
@[simp] theorem State.skipIf_v (s : State) (c : Bool) : (s.skipIf c).v = s.v := rfl
@[simp] theorem State.skipIf_i (s : State) (c : Bool) : (s.skipIf c).i = s.i := rfl
@[simp] theorem State.skipIf_pc (s : State) (c : Bool) : (s.skipIf c).pc = if c then s.pc + 2 else s.pc := rfl
@[simp] theorem State.skipIf_stack (s : State) (c : Bool) : (s.skipIf c).stack = s.stack := rfl
@[simp] theorem State.skipIf_sp (s : State) (c : Bool) : (s.skipIf c).sp = s.sp := rfl
@[simp] theorem State.skipIf_dt (s : State) (c : Bool) : (s.skipIf c).dt = s.dt := rfl
@[simp] theorem State.skipIf_st (s : State) (c : Bool) : (s.skipIf c).st = s.st := rfl
@[simp] theorem State.skipIf_keypad (s : State) (c : Bool) : (s.skipIf c).keypad = s.keypad := rfl
@[simp] theorem State.skipIf_run (s : State) (c : Bool) : (s.skipIf c).run = s.run := rfl
@[simp] theorem State.skipIf_fault (s : State) (c : Bool) : (s.skipIf c).fault = s.fault := rfl
@[simp] theorem State.skipIf_wait (s : State) (c : Bool) : (s.skipIf c).wait = s.wait := rfl
@[simp] theorem State.skipIf_keyPrev (s : State) (c : Bool) : (s.skipIf c).keyPrev = s.keyPrev := rfl
@[simp] theorem State.skipIf_cfg (s : State) (c : Bool) : (s.skipIf c).cfg = s.cfg := rfl
@[simp] theorem State.skipIf_draws (s : State) (c : Bool) : (s.skipIf c).draws = s.draws := rfl
@[simp] theorem State.skipIf_agenda (s : State) (c : Bool) : (s.skipIf c).agenda = s.agenda := rfl
@[simp] theorem State.skipIf_schedule (s : State) (c : Bool) : (s.skipIf c).schedule = s.schedule := rfl

/-! ### `writeV` -/

@[simp] theorem State.writeV_mem (s : State) (x : RegIx) (b : Byte) : (s.writeV x b).mem = s.mem := rfl
@[simp] theorem State.writeV_display (s : State) (x : RegIx) (b : Byte) : (s.writeV x b).display = s.display := rfl
@[simp] theorem State.writeV_v (s : State) (x : RegIx) (b : Byte) : (s.writeV x b).v = s.v.set x b := rfl
@[simp] theorem State.writeV_i (s : State) (x : RegIx) (b : Byte) : (s.writeV x b).i = s.i := rfl
@[simp] theorem State.writeV_pc (s : State) (x : RegIx) (b : Byte) : (s.writeV x b).pc = s.pc := rfl
@[simp] theorem State.writeV_stack (s : State) (x : RegIx) (b : Byte) : (s.writeV x b).stack = s.stack := rfl
@[simp] theorem State.writeV_sp (s : State) (x : RegIx) (b : Byte) : (s.writeV x b).sp = s.sp := rfl
@[simp] theorem State.writeV_dt (s : State) (x : RegIx) (b : Byte) : (s.writeV x b).dt = s.dt := rfl
@[simp] theorem State.writeV_st (s : State) (x : RegIx) (b : Byte) : (s.writeV x b).st = s.st := rfl
@[simp] theorem State.writeV_keypad (s : State) (x : RegIx) (b : Byte) : (s.writeV x b).keypad = s.keypad := rfl
@[simp] theorem State.writeV_run (s : State) (x : RegIx) (b : Byte) : (s.writeV x b).run = s.run := rfl
@[simp] theorem State.writeV_fault (s : State) (x : RegIx) (b : Byte) : (s.writeV x b).fault = s.fault := rfl
@[simp] theorem State.writeV_wait (s : State) (x : RegIx) (b : Byte) : (s.writeV x b).wait = s.wait := rfl
@[simp] theorem State.writeV_keyPrev (s : State) (x : RegIx) (b : Byte) : (s.writeV x b).keyPrev = s.keyPrev := rfl
@[simp] theorem State.writeV_cfg (s : State) (x : RegIx) (b : Byte) : (s.writeV x b).cfg = s.cfg := rfl
@[simp] theorem State.writeV_draws (s : State) (x : RegIx) (b : Byte) : (s.writeV x b).draws = s.draws := rfl
@[simp] theorem State.writeV_agenda (s : State) (x : RegIx) (b : Byte) : (s.writeV x b).agenda = s.agenda := rfl
@[simp] theorem State.writeV_schedule (s : State) (x : RegIx) (b : Byte) : (s.writeV x b).schedule = s.schedule := rfl

/-! ### `writeFlagged` -/

@[simp] theorem State.writeFlagged_mem (s : State) (x : RegIx) (r f : Byte) : (s.writeFlagged x r f).mem = s.mem := rfl
@[simp] theorem State.writeFlagged_display (s : State) (x : RegIx) (r f : Byte) : (s.writeFlagged x r f).display = s.display := rfl
@[simp] theorem State.writeFlagged_v (s : State) (x : RegIx) (r f : Byte) : (s.writeFlagged x r f).v = (s.v.set x r).set vf f := rfl
@[simp] theorem State.writeFlagged_i (s : State) (x : RegIx) (r f : Byte) : (s.writeFlagged x r f).i = s.i := rfl
@[simp] theorem State.writeFlagged_pc (s : State) (x : RegIx) (r f : Byte) : (s.writeFlagged x r f).pc = s.pc := rfl
@[simp] theorem State.writeFlagged_stack (s : State) (x : RegIx) (r f : Byte) : (s.writeFlagged x r f).stack = s.stack := rfl
@[simp] theorem State.writeFlagged_sp (s : State) (x : RegIx) (r f : Byte) : (s.writeFlagged x r f).sp = s.sp := rfl
@[simp] theorem State.writeFlagged_dt (s : State) (x : RegIx) (r f : Byte) : (s.writeFlagged x r f).dt = s.dt := rfl
@[simp] theorem State.writeFlagged_st (s : State) (x : RegIx) (r f : Byte) : (s.writeFlagged x r f).st = s.st := rfl
@[simp] theorem State.writeFlagged_keypad (s : State) (x : RegIx) (r f : Byte) : (s.writeFlagged x r f).keypad = s.keypad := rfl
@[simp] theorem State.writeFlagged_run (s : State) (x : RegIx) (r f : Byte) : (s.writeFlagged x r f).run = s.run := rfl
@[simp] theorem State.writeFlagged_fault (s : State) (x : RegIx) (r f : Byte) : (s.writeFlagged x r f).fault = s.fault := rfl
@[simp] theorem State.writeFlagged_wait (s : State) (x : RegIx) (r f : Byte) : (s.writeFlagged x r f).wait = s.wait := rfl
@[simp] theorem State.writeFlagged_keyPrev (s : State) (x : RegIx) (r f : Byte) : (s.writeFlagged x r f).keyPrev = s.keyPrev := rfl
@[simp] theorem State.writeFlagged_cfg (s : State) (x : RegIx) (r f : Byte) : (s.writeFlagged x r f).cfg = s.cfg := rfl
@[simp] theorem State.writeFlagged_draws (s : State) (x : RegIx) (r f : Byte) : (s.writeFlagged x r f).draws = s.draws := rfl
@[simp] theorem State.writeFlagged_agenda (s : State) (x : RegIx) (r f : Byte) : (s.writeFlagged x r f).agenda = s.agenda := rfl
@[simp] theorem State.writeFlagged_schedule (s : State) (x : RegIx) (r f : Byte) : (s.writeFlagged x r f).schedule = s.schedule := rfl

/-! ### `loadRegs` -/

@[simp] theorem State.loadRegs_mem (s : State) (bs : List Byte) : (s.loadRegs bs).mem = s.mem := rfl
@[simp] theorem State.loadRegs_display (s : State) (bs : List Byte) : (s.loadRegs bs).display = s.display := rfl
@[simp] theorem State.loadRegs_v (s : State) (bs : List Byte) : (s.loadRegs bs).v = loadInto 0 bs s.v := rfl
@[simp] theorem State.loadRegs_i (s : State) (bs : List Byte) : (s.loadRegs bs).i = s.i := rfl
@[simp] theorem State.loadRegs_pc (s : State) (bs : List Byte) : (s.loadRegs bs).pc = s.pc := rfl
@[simp] theorem State.loadRegs_stack (s : State) (bs : List Byte) : (s.loadRegs bs).stack = s.stack := rfl
@[simp] theorem State.loadRegs_sp (s : State) (bs : List Byte) : (s.loadRegs bs).sp = s.sp := rfl
@[simp] theorem State.loadRegs_dt (s : State) (bs : List Byte) : (s.loadRegs bs).dt = s.dt := rfl
@[simp] theorem State.loadRegs_st (s : State) (bs : List Byte) : (s.loadRegs bs).st = s.st := rfl
@[simp] theorem State.loadRegs_keypad (s : State) (bs : List Byte) : (s.loadRegs bs).keypad = s.keypad := rfl
@[simp] theorem State.loadRegs_run (s : State) (bs : List Byte) : (s.loadRegs bs).run = s.run := rfl
@[simp] theorem State.loadRegs_fault (s : State) (bs : List Byte) : (s.loadRegs bs).fault = s.fault := rfl
@[simp] theorem State.loadRegs_wait (s : State) (bs : List Byte) : (s.loadRegs bs).wait = s.wait := rfl
@[simp] theorem State.loadRegs_keyPrev (s : State) (bs : List Byte) : (s.loadRegs bs).keyPrev = s.keyPrev := rfl
@[simp] theorem State.loadRegs_cfg (s : State) (bs : List Byte) : (s.loadRegs bs).cfg = s.cfg := rfl
@[simp] theorem State.loadRegs_draws (s : State) (bs : List Byte) : (s.loadRegs bs).draws = s.draws := rfl
@[simp] theorem State.loadRegs_agenda (s : State) (bs : List Byte) : (s.loadRegs bs).agenda = s.agenda := rfl
@[simp] theorem State.loadRegs_schedule (s : State) (bs : List Byte) : (s.loadRegs bs).schedule = s.schedule := rfl

/-! ### `setI` -/

@[simp] theorem State.setI_mem (s : State) (w : Word) : (s.setI w).mem = s.mem := rfl
@[simp] theorem State.setI_display (s : State) (w : Word) : (s.setI w).display = s.display := rfl
@[simp] theorem State.setI_v (s : State) (w : Word) : (s.setI w).v = s.v := rfl
@[simp] theorem State.setI_i (s : State) (w : Word) : (s.setI w).i = w := rfl
@[simp] theorem State.setI_pc (s : State) (w : Word) : (s.setI w).pc = s.pc := rfl
@[simp] theorem State.setI_stack (s : State) (w : Word) : (s.setI w).stack = s.stack := rfl
@[simp] theorem State.setI_sp (s : State) (w : Word) : (s.setI w).sp = s.sp := rfl
@[simp] theorem State.setI_dt (s : State) (w : Word) : (s.setI w).dt = s.dt := rfl
@[simp] theorem State.setI_st (s : State) (w : Word) : (s.setI w).st = s.st := rfl
@[simp] theorem State.setI_keypad (s : State) (w : Word) : (s.setI w).keypad = s.keypad := rfl
@[simp] theorem State.setI_run (s : State) (w : Word) : (s.setI w).run = s.run := rfl
@[simp] theorem State.setI_fault (s : State) (w : Word) : (s.setI w).fault = s.fault := rfl
@[simp] theorem State.setI_wait (s : State) (w : Word) : (s.setI w).wait = s.wait := rfl
@[simp] theorem State.setI_keyPrev (s : State) (w : Word) : (s.setI w).keyPrev = s.keyPrev := rfl
@[simp] theorem State.setI_cfg (s : State) (w : Word) : (s.setI w).cfg = s.cfg := rfl
@[simp] theorem State.setI_draws (s : State) (w : Word) : (s.setI w).draws = s.draws := rfl
@[simp] theorem State.setI_agenda (s : State) (w : Word) : (s.setI w).agenda = s.agenda := rfl
@[simp] theorem State.setI_schedule (s : State) (w : Word) : (s.setI w).schedule = s.schedule := rfl

/-! ### `storeBytes` -/

@[simp] theorem State.storeBytes_mem (s : State) (a : Nat) (bs : List Byte) : (s.storeBytes a bs).mem = s.mem.writeBytes a bs := rfl
@[simp] theorem State.storeBytes_display (s : State) (a : Nat) (bs : List Byte) : (s.storeBytes a bs).display = s.display := rfl
@[simp] theorem State.storeBytes_v (s : State) (a : Nat) (bs : List Byte) : (s.storeBytes a bs).v = s.v := rfl
@[simp] theorem State.storeBytes_i (s : State) (a : Nat) (bs : List Byte) : (s.storeBytes a bs).i = s.i := rfl
@[simp] theorem State.storeBytes_pc (s : State) (a : Nat) (bs : List Byte) : (s.storeBytes a bs).pc = s.pc := rfl
@[simp] theorem State.storeBytes_stack (s : State) (a : Nat) (bs : List Byte) : (s.storeBytes a bs).stack = s.stack := rfl
@[simp] theorem State.storeBytes_sp (s : State) (a : Nat) (bs : List Byte) : (s.storeBytes a bs).sp = s.sp := rfl
@[simp] theorem State.storeBytes_dt (s : State) (a : Nat) (bs : List Byte) : (s.storeBytes a bs).dt = s.dt := rfl
@[simp] theorem State.storeBytes_st (s : State) (a : Nat) (bs : List Byte) : (s.storeBytes a bs).st = s.st := rfl
@[simp] theorem State.storeBytes_keypad (s : State) (a : Nat) (bs : List Byte) : (s.storeBytes a bs).keypad = s.keypad := rfl
@[simp] theorem State.storeBytes_run (s : State) (a : Nat) (bs : List Byte) : (s.storeBytes a bs).run = s.run := rfl
@[simp] theorem State.storeBytes_fault (s : State) (a : Nat) (bs : List Byte) : (s.storeBytes a bs).fault = s.fault := rfl
@[simp] theorem State.storeBytes_wait (s : State) (a : Nat) (bs : List Byte) : (s.storeBytes a bs).wait = s.wait := rfl
@[simp] theorem State.storeBytes_keyPrev (s : State) (a : Nat) (bs : List Byte) : (s.storeBytes a bs).keyPrev = s.keyPrev := rfl
@[simp] theorem State.storeBytes_cfg (s : State) (a : Nat) (bs : List Byte) : (s.storeBytes a bs).cfg = s.cfg := rfl
@[simp] theorem State.storeBytes_draws (s : State) (a : Nat) (bs : List Byte) : (s.storeBytes a bs).draws = s.draws := rfl
@[simp] theorem State.storeBytes_agenda (s : State) (a : Nat) (bs : List Byte) : (s.storeBytes a bs).agenda = s.agenda := rfl
@[simp] theorem State.storeBytes_schedule (s : State) (a : Nat) (bs : List Byte) : (s.storeBytes a bs).schedule = s.schedule := rfl

/-! ### `setDisplay` -/

@[simp] theorem State.setDisplay_mem (s : State) (d : Display) : (s.setDisplay d).mem = s.mem := rfl
@[simp] theorem State.setDisplay_display (s : State) (d : Display) : (s.setDisplay d).display = d := rfl
@[simp] theorem State.setDisplay_v (s : State) (d : Display) : (s.setDisplay d).v = s.v := rfl
@[simp] theorem State.setDisplay_i (s : State) (d : Display) : (s.setDisplay d).i = s.i := rfl
@[simp] theorem State.setDisplay_pc (s : State) (d : Display) : (s.setDisplay d).pc = s.pc := rfl
@[simp] theorem State.setDisplay_stack (s : State) (d : Display) : (s.setDisplay d).stack = s.stack := rfl
@[simp] theorem State.setDisplay_sp (s : State) (d : Display) : (s.setDisplay d).sp = s.sp := rfl
@[simp] theorem State.setDisplay_dt (s : State) (d : Display) : (s.setDisplay d).dt = s.dt := rfl
@[simp] theorem State.setDisplay_st (s : State) (d : Display) : (s.setDisplay d).st = s.st := rfl
@[simp] theorem State.setDisplay_keypad (s : State) (d : Display) : (s.setDisplay d).keypad = s.keypad := rfl
@[simp] theorem State.setDisplay_run (s : State) (d : Display) : (s.setDisplay d).run = s.run := rfl
@[simp] theorem State.setDisplay_fault (s : State) (d : Display) : (s.setDisplay d).fault = s.fault := rfl
@[simp] theorem State.setDisplay_wait (s : State) (d : Display) : (s.setDisplay d).wait = s.wait := rfl
@[simp] theorem State.setDisplay_keyPrev (s : State) (d : Display) : (s.setDisplay d).keyPrev = s.keyPrev := rfl
@[simp] theorem State.setDisplay_cfg (s : State) (d : Display) : (s.setDisplay d).cfg = s.cfg := rfl
@[simp] theorem State.setDisplay_draws (s : State) (d : Display) : (s.setDisplay d).draws = s.draws := rfl
@[simp] theorem State.setDisplay_agenda (s : State) (d : Display) : (s.setDisplay d).agenda = s.agenda := rfl
@[simp] theorem State.setDisplay_schedule (s : State) (d : Display) : (s.setDisplay d).schedule = s.schedule := rfl

/-! ### `setDt` -/

@[simp] theorem State.setDt_mem (s : State) (b : Byte) : (s.setDt b).mem = s.mem := rfl
@[simp] theorem State.setDt_display (s : State) (b : Byte) : (s.setDt b).display = s.display := rfl
@[simp] theorem State.setDt_v (s : State) (b : Byte) : (s.setDt b).v = s.v := rfl
@[simp] theorem State.setDt_i (s : State) (b : Byte) : (s.setDt b).i = s.i := rfl
@[simp] theorem State.setDt_pc (s : State) (b : Byte) : (s.setDt b).pc = s.pc := rfl
@[simp] theorem State.setDt_stack (s : State) (b : Byte) : (s.setDt b).stack = s.stack := rfl
@[simp] theorem State.setDt_sp (s : State) (b : Byte) : (s.setDt b).sp = s.sp := rfl
@[simp] theorem State.setDt_dt (s : State) (b : Byte) : (s.setDt b).dt = b := rfl
@[simp] theorem State.setDt_st (s : State) (b : Byte) : (s.setDt b).st = s.st := rfl
@[simp] theorem State.setDt_keypad (s : State) (b : Byte) : (s.setDt b).keypad = s.keypad := rfl
@[simp] theorem State.setDt_run (s : State) (b : Byte) : (s.setDt b).run = s.run := rfl
@[simp] theorem State.setDt_fault (s : State) (b : Byte) : (s.setDt b).fault = s.fault := rfl
@[simp] theorem State.setDt_wait (s : State) (b : Byte) : (s.setDt b).wait = s.wait := rfl
@[simp] theorem State.setDt_keyPrev (s : State) (b : Byte) : (s.setDt b).keyPrev = s.keyPrev := rfl
@[simp] theorem State.setDt_cfg (s : State) (b : Byte) : (s.setDt b).cfg = s.cfg := rfl
@[simp] theorem State.setDt_draws (s : State) (b : Byte) : (s.setDt b).draws = s.draws := rfl
@[simp] theorem State.setDt_agenda (s : State) (b : Byte) : (s.setDt b).agenda = s.agenda := rfl
@[simp] theorem State.setDt_schedule (s : State) (b : Byte) : (s.setDt b).schedule = s.schedule := rfl

/-! ### `setSt` -/

@[simp] theorem State.setSt_mem (s : State) (b : Byte) : (s.setSt b).mem = s.mem := rfl
@[simp] theorem State.setSt_display (s : State) (b : Byte) : (s.setSt b).display = s.display := rfl
@[simp] theorem State.setSt_v (s : State) (b : Byte) : (s.setSt b).v = s.v := rfl
@[simp] theorem State.setSt_i (s : State) (b : Byte) : (s.setSt b).i = s.i := rfl
@[simp] theorem State.setSt_pc (s : State) (b : Byte) : (s.setSt b).pc = s.pc := rfl
@[simp] theorem State.setSt_stack (s : State) (b : Byte) : (s.setSt b).stack = s.stack := rfl
@[simp] theorem State.setSt_sp (s : State) (b : Byte) : (s.setSt b).sp = s.sp := rfl
@[simp] theorem State.setSt_dt (s : State) (b : Byte) : (s.setSt b).dt = s.dt := rfl
@[simp] theorem State.setSt_st (s : State) (b : Byte) : (s.setSt b).st = b := rfl
@[simp] theorem State.setSt_keypad (s : State) (b : Byte) : (s.setSt b).keypad = s.keypad := rfl
@[simp] theorem State.setSt_run (s : State) (b : Byte) : (s.setSt b).run = s.run := rfl
@[simp] theorem State.setSt_fault (s : State) (b : Byte) : (s.setSt b).fault = s.fault := rfl
@[simp] theorem State.setSt_wait (s : State) (b : Byte) : (s.setSt b).wait = s.wait := rfl
@[simp] theorem State.setSt_keyPrev (s : State) (b : Byte) : (s.setSt b).keyPrev = s.keyPrev := rfl
@[simp] theorem State.setSt_cfg (s : State) (b : Byte) : (s.setSt b).cfg = s.cfg := rfl
@[simp] theorem State.setSt_draws (s : State) (b : Byte) : (s.setSt b).draws = s.draws := rfl
@[simp] theorem State.setSt_agenda (s : State) (b : Byte) : (s.setSt b).agenda = s.agenda := rfl
@[simp] theorem State.setSt_schedule (s : State) (b : Byte) : (s.setSt b).schedule = s.schedule := rfl

/-! ### `setKeypad` -/

@[simp] theorem State.setKeypad_mem (s : State) (k : BitVec 16) : (s.setKeypad k).mem = s.mem := rfl
@[simp] theorem State.setKeypad_display (s : State) (k : BitVec 16) : (s.setKeypad k).display = s.display := rfl
@[simp] theorem State.setKeypad_v (s : State) (k : BitVec 16) : (s.setKeypad k).v = s.v := rfl
@[simp] theorem State.setKeypad_i (s : State) (k : BitVec 16) : (s.setKeypad k).i = s.i := rfl
@[simp] theorem State.setKeypad_pc (s : State) (k : BitVec 16) : (s.setKeypad k).pc = s.pc := rfl
@[simp] theorem State.setKeypad_stack (s : State) (k : BitVec 16) : (s.setKeypad k).stack = s.stack := rfl
@[simp] theorem State.setKeypad_sp (s : State) (k : BitVec 16) : (s.setKeypad k).sp = s.sp := rfl
@[simp] theorem State.setKeypad_dt (s : State) (k : BitVec 16) : (s.setKeypad k).dt = s.dt := rfl
@[simp] theorem State.setKeypad_st (s : State) (k : BitVec 16) : (s.setKeypad k).st = s.st := rfl
@[simp] theorem State.setKeypad_keypad (s : State) (k : BitVec 16) : (s.setKeypad k).keypad = k := rfl
@[simp] theorem State.setKeypad_run (s : State) (k : BitVec 16) : (s.setKeypad k).run = s.run := rfl
@[simp] theorem State.setKeypad_fault (s : State) (k : BitVec 16) : (s.setKeypad k).fault = s.fault := rfl
@[simp] theorem State.setKeypad_wait (s : State) (k : BitVec 16) : (s.setKeypad k).wait = s.wait := rfl
@[simp] theorem State.setKeypad_keyPrev (s : State) (k : BitVec 16) : (s.setKeypad k).keyPrev = s.keyPrev := rfl
@[simp] theorem State.setKeypad_cfg (s : State) (k : BitVec 16) : (s.setKeypad k).cfg = s.cfg := rfl
@[simp] theorem State.setKeypad_draws (s : State) (k : BitVec 16) : (s.setKeypad k).draws = s.draws := rfl
@[simp] theorem State.setKeypad_agenda (s : State) (k : BitVec 16) : (s.setKeypad k).agenda = s.agenda := rfl
@[simp] theorem State.setKeypad_schedule (s : State) (k : BitVec 16) : (s.setKeypad k).schedule = s.schedule := rfl

/-! ### `setRun` -/

@[simp] theorem State.setRun_mem (s : State) (r : RunState) : (s.setRun r).mem = s.mem := rfl
@[simp] theorem State.setRun_display (s : State) (r : RunState) : (s.setRun r).display = s.display := rfl
@[simp] theorem State.setRun_v (s : State) (r : RunState) : (s.setRun r).v = s.v := rfl
@[simp] theorem State.setRun_i (s : State) (r : RunState) : (s.setRun r).i = s.i := rfl
@[simp] theorem State.setRun_pc (s : State) (r : RunState) : (s.setRun r).pc = s.pc := rfl
@[simp] theorem State.setRun_stack (s : State) (r : RunState) : (s.setRun r).stack = s.stack := rfl
@[simp] theorem State.setRun_sp (s : State) (r : RunState) : (s.setRun r).sp = s.sp := rfl
@[simp] theorem State.setRun_dt (s : State) (r : RunState) : (s.setRun r).dt = s.dt := rfl
@[simp] theorem State.setRun_st (s : State) (r : RunState) : (s.setRun r).st = s.st := rfl
@[simp] theorem State.setRun_keypad (s : State) (r : RunState) : (s.setRun r).keypad = s.keypad := rfl
@[simp] theorem State.setRun_run (s : State) (r : RunState) : (s.setRun r).run = r := rfl
@[simp] theorem State.setRun_fault (s : State) (r : RunState) : (s.setRun r).fault = s.fault := rfl
@[simp] theorem State.setRun_wait (s : State) (r : RunState) : (s.setRun r).wait = s.wait := rfl
@[simp] theorem State.setRun_keyPrev (s : State) (r : RunState) : (s.setRun r).keyPrev = s.keyPrev := rfl
@[simp] theorem State.setRun_cfg (s : State) (r : RunState) : (s.setRun r).cfg = s.cfg := rfl
@[simp] theorem State.setRun_draws (s : State) (r : RunState) : (s.setRun r).draws = s.draws := rfl
@[simp] theorem State.setRun_agenda (s : State) (r : RunState) : (s.setRun r).agenda = s.agenda := rfl
@[simp] theorem State.setRun_schedule (s : State) (r : RunState) : (s.setRun r).schedule = s.schedule := rfl

/-! ### `lookAtKeys` -/

@[simp] theorem State.lookAtKeys_mem (s : State) (w : Bool) : (s.lookAtKeys w).mem = s.mem := rfl
@[simp] theorem State.lookAtKeys_display (s : State) (w : Bool) : (s.lookAtKeys w).display = s.display := rfl
@[simp] theorem State.lookAtKeys_v (s : State) (w : Bool) : (s.lookAtKeys w).v = s.v := rfl
@[simp] theorem State.lookAtKeys_i (s : State) (w : Bool) : (s.lookAtKeys w).i = s.i := rfl
@[simp] theorem State.lookAtKeys_pc (s : State) (w : Bool) : (s.lookAtKeys w).pc = s.pc := rfl
@[simp] theorem State.lookAtKeys_stack (s : State) (w : Bool) : (s.lookAtKeys w).stack = s.stack := rfl
@[simp] theorem State.lookAtKeys_sp (s : State) (w : Bool) : (s.lookAtKeys w).sp = s.sp := rfl
@[simp] theorem State.lookAtKeys_dt (s : State) (w : Bool) : (s.lookAtKeys w).dt = s.dt := rfl
@[simp] theorem State.lookAtKeys_st (s : State) (w : Bool) : (s.lookAtKeys w).st = s.st := rfl
@[simp] theorem State.lookAtKeys_keypad (s : State) (w : Bool) : (s.lookAtKeys w).keypad = s.keypad := rfl
@[simp] theorem State.lookAtKeys_run (s : State) (w : Bool) : (s.lookAtKeys w).run = s.run := rfl
@[simp] theorem State.lookAtKeys_fault (s : State) (w : Bool) : (s.lookAtKeys w).fault = s.fault := rfl
@[simp] theorem State.lookAtKeys_wait (s : State) (w : Bool) : (s.lookAtKeys w).wait = w := rfl
@[simp] theorem State.lookAtKeys_keyPrev (s : State) (w : Bool) : (s.lookAtKeys w).keyPrev = s.keypad := rfl
@[simp] theorem State.lookAtKeys_cfg (s : State) (w : Bool) : (s.lookAtKeys w).cfg = s.cfg := rfl
@[simp] theorem State.lookAtKeys_draws (s : State) (w : Bool) : (s.lookAtKeys w).draws = s.draws := rfl
@[simp] theorem State.lookAtKeys_agenda (s : State) (w : Bool) : (s.lookAtKeys w).agenda = s.agenda := rfl
@[simp] theorem State.lookAtKeys_schedule (s : State) (w : Bool) : (s.lookAtKeys w).schedule = s.schedule := rfl

/-! ### `drawn` -/

@[simp] theorem State.drawn_mem (s : State) : s.drawn.mem = s.mem := rfl
@[simp] theorem State.drawn_display (s : State) : s.drawn.display = s.display := rfl
@[simp] theorem State.drawn_v (s : State) : s.drawn.v = s.v := rfl
@[simp] theorem State.drawn_i (s : State) : s.drawn.i = s.i := rfl
@[simp] theorem State.drawn_pc (s : State) : s.drawn.pc = s.pc := rfl
@[simp] theorem State.drawn_stack (s : State) : s.drawn.stack = s.stack := rfl
@[simp] theorem State.drawn_sp (s : State) : s.drawn.sp = s.sp := rfl
@[simp] theorem State.drawn_dt (s : State) : s.drawn.dt = s.dt := rfl
@[simp] theorem State.drawn_st (s : State) : s.drawn.st = s.st := rfl
@[simp] theorem State.drawn_keypad (s : State) : s.drawn.keypad = s.keypad := rfl
@[simp] theorem State.drawn_run (s : State) : s.drawn.run = s.run := rfl
@[simp] theorem State.drawn_fault (s : State) : s.drawn.fault = s.fault := rfl
@[simp] theorem State.drawn_wait (s : State) : s.drawn.wait = s.wait := rfl
@[simp] theorem State.drawn_keyPrev (s : State) : s.drawn.keyPrev = s.keyPrev := rfl
@[simp] theorem State.drawn_cfg (s : State) : s.drawn.cfg = s.cfg := rfl
@[simp] theorem State.drawn_draws (s : State) : s.drawn.draws = s.draws + 1 := rfl
@[simp] theorem State.drawn_agenda (s : State) : s.drawn.agenda = s.agenda := rfl
@[simp] theorem State.drawn_schedule (s : State) : s.drawn.schedule = s.schedule := rfl

/-! ### `halted` -/

@[simp] theorem State.halted_mem (s : State) (c : FaultCode) : (s.halted c).mem = s.mem := rfl
@[simp] theorem State.halted_display (s : State) (c : FaultCode) : (s.halted c).display = s.display := rfl
@[simp] theorem State.halted_v (s : State) (c : FaultCode) : (s.halted c).v = s.v := rfl
@[simp] theorem State.halted_i (s : State) (c : FaultCode) : (s.halted c).i = s.i := rfl
@[simp] theorem State.halted_pc (s : State) (c : FaultCode) : (s.halted c).pc = s.pc := rfl
@[simp] theorem State.halted_stack (s : State) (c : FaultCode) : (s.halted c).stack = s.stack := rfl
@[simp] theorem State.halted_sp (s : State) (c : FaultCode) : (s.halted c).sp = s.sp := rfl
@[simp] theorem State.halted_dt (s : State) (c : FaultCode) : (s.halted c).dt = s.dt := rfl
@[simp] theorem State.halted_st (s : State) (c : FaultCode) : (s.halted c).st = s.st := rfl
@[simp] theorem State.halted_keypad (s : State) (c : FaultCode) : (s.halted c).keypad = s.keypad := rfl
@[simp] theorem State.halted_run (s : State) (c : FaultCode) : (s.halted c).run = .halted := rfl
@[simp] theorem State.halted_fault (s : State) (c : FaultCode) : (s.halted c).fault = c := rfl
@[simp] theorem State.halted_wait (s : State) (c : FaultCode) : (s.halted c).wait = s.wait := rfl
@[simp] theorem State.halted_keyPrev (s : State) (c : FaultCode) : (s.halted c).keyPrev = s.keyPrev := rfl
@[simp] theorem State.halted_cfg (s : State) (c : FaultCode) : (s.halted c).cfg = s.cfg := rfl
@[simp] theorem State.halted_draws (s : State) (c : FaultCode) : (s.halted c).draws = s.draws := rfl
@[simp] theorem State.halted_agenda (s : State) (c : FaultCode) : (s.halted c).agenda = s.agenda := rfl
@[simp] theorem State.halted_schedule (s : State) (c : FaultCode) : (s.halted c).schedule = s.schedule := rfl

/-! ### `planned` and `popAgenda`: only `agenda` and `schedule` change -/

theorem State.planned_eq (s : State) : s.planned = { s with agenda := s.planned.agenda, schedule := s.planned.schedule } := by
  unfold State.planned
  split
  · rfl
  · split <;> rfl

@[simp] theorem State.planned_mem (s : State) : s.planned.mem = s.mem := by rw [State.planned_eq]
@[simp] theorem State.planned_display (s : State) : s.planned.display = s.display := by rw [State.planned_eq]
@[simp] theorem State.planned_v (s : State) : s.planned.v = s.v := by rw [State.planned_eq]
@[simp] theorem State.planned_i (s : State) : s.planned.i = s.i := by rw [State.planned_eq]
@[simp] theorem State.planned_pc (s : State) : s.planned.pc = s.pc := by rw [State.planned_eq]
@[simp] theorem State.planned_stack (s : State) : s.planned.stack = s.stack := by rw [State.planned_eq]
@[simp] theorem State.planned_sp (s : State) : s.planned.sp = s.sp := by rw [State.planned_eq]
@[simp] theorem State.planned_dt (s : State) : s.planned.dt = s.dt := by rw [State.planned_eq]
@[simp] theorem State.planned_st (s : State) : s.planned.st = s.st := by rw [State.planned_eq]
@[simp] theorem State.planned_keypad (s : State) : s.planned.keypad = s.keypad := by rw [State.planned_eq]
@[simp] theorem State.planned_run (s : State) : s.planned.run = s.run := by rw [State.planned_eq]
@[simp] theorem State.planned_fault (s : State) : s.planned.fault = s.fault := by rw [State.planned_eq]
@[simp] theorem State.planned_wait (s : State) : s.planned.wait = s.wait := by rw [State.planned_eq]
@[simp] theorem State.planned_keyPrev (s : State) : s.planned.keyPrev = s.keyPrev := by rw [State.planned_eq]
@[simp] theorem State.planned_cfg (s : State) : s.planned.cfg = s.cfg := by rw [State.planned_eq]
@[simp] theorem State.planned_draws (s : State) : s.planned.draws = s.draws := by rw [State.planned_eq]

@[simp] theorem State.popAgenda_mem (s : State) : s.popAgenda.mem = s.mem := s.planned_mem
@[simp] theorem State.popAgenda_display (s : State) : s.popAgenda.display = s.display := s.planned_display
@[simp] theorem State.popAgenda_v (s : State) : s.popAgenda.v = s.v := s.planned_v
@[simp] theorem State.popAgenda_i (s : State) : s.popAgenda.i = s.i := s.planned_i
@[simp] theorem State.popAgenda_pc (s : State) : s.popAgenda.pc = s.pc := s.planned_pc
@[simp] theorem State.popAgenda_stack (s : State) : s.popAgenda.stack = s.stack := s.planned_stack
@[simp] theorem State.popAgenda_sp (s : State) : s.popAgenda.sp = s.sp := s.planned_sp
@[simp] theorem State.popAgenda_dt (s : State) : s.popAgenda.dt = s.dt := s.planned_dt
@[simp] theorem State.popAgenda_st (s : State) : s.popAgenda.st = s.st := s.planned_st
@[simp] theorem State.popAgenda_keypad (s : State) : s.popAgenda.keypad = s.keypad := s.planned_keypad
@[simp] theorem State.popAgenda_run (s : State) : s.popAgenda.run = s.run := s.planned_run
@[simp] theorem State.popAgenda_fault (s : State) : s.popAgenda.fault = s.fault := s.planned_fault
@[simp] theorem State.popAgenda_wait (s : State) : s.popAgenda.wait = s.wait := s.planned_wait
@[simp] theorem State.popAgenda_keyPrev (s : State) : s.popAgenda.keyPrev = s.keyPrev := s.planned_keyPrev
@[simp] theorem State.popAgenda_cfg (s : State) : s.popAgenda.cfg = s.cfg := s.planned_cfg
@[simp] theorem State.popAgenda_draws (s : State) : s.popAgenda.draws = s.draws := s.planned_draws
@[simp] theorem State.popAgenda_agenda (s : State) : s.popAgenda.agenda = s.planned.agenda.tail := rfl
@[simp] theorem State.popAgenda_schedule (s : State) : s.popAgenda.schedule = s.planned.schedule := rfl
@[simp] theorem State.readV_popAgenda (s : State) (j : RegIx) : s.popAgenda.readV j = s.readV j := by
  rw [State.readV, State.popAgenda_v]; rfl
@[simp] theorem State.readMem_popAgenda (s : State) (c : Nat) : s.popAgenda.readMem c = s.readMem c := by
  rw [State.readMem, State.popAgenda_mem]; rfl
@[simp] theorem State.fetchWord_popAgenda (s : State) : s.popAgenda.fetchWord = s.fetchWord := by
  simp [State.fetchWord]

/-! ### `writeLogic` -/

theorem State.writeLogic_eq (s : State) (x : RegIx) (r : Byte) :
    s.writeLogic x r = if s.cfg.logicVf = .reset then s.writeFlagged x r 0 else s.writeV x r := by
  unfold State.writeLogic; cases s.cfg.logicVf <;> rfl

@[simp] theorem State.writeLogic_mem (s : State) (x : RegIx) (r : Byte) : (s.writeLogic x r).mem = s.mem := by
  unfold State.writeLogic; split <;> rfl
@[simp] theorem State.writeLogic_display (s : State) (x : RegIx) (r : Byte) : (s.writeLogic x r).display = s.display := by
  unfold State.writeLogic; split <;> rfl
@[simp] theorem State.writeLogic_i (s : State) (x : RegIx) (r : Byte) : (s.writeLogic x r).i = s.i := by
  unfold State.writeLogic; split <;> rfl
@[simp] theorem State.writeLogic_pc (s : State) (x : RegIx) (r : Byte) : (s.writeLogic x r).pc = s.pc := by
  unfold State.writeLogic; split <;> rfl
@[simp] theorem State.writeLogic_stack (s : State) (x : RegIx) (r : Byte) : (s.writeLogic x r).stack = s.stack := by
  unfold State.writeLogic; split <;> rfl
@[simp] theorem State.writeLogic_sp (s : State) (x : RegIx) (r : Byte) : (s.writeLogic x r).sp = s.sp := by
  unfold State.writeLogic; split <;> rfl
@[simp] theorem State.writeLogic_dt (s : State) (x : RegIx) (r : Byte) : (s.writeLogic x r).dt = s.dt := by
  unfold State.writeLogic; split <;> rfl
@[simp] theorem State.writeLogic_st (s : State) (x : RegIx) (r : Byte) : (s.writeLogic x r).st = s.st := by
  unfold State.writeLogic; split <;> rfl
@[simp] theorem State.writeLogic_keypad (s : State) (x : RegIx) (r : Byte) : (s.writeLogic x r).keypad = s.keypad := by
  unfold State.writeLogic; split <;> rfl
@[simp] theorem State.writeLogic_run (s : State) (x : RegIx) (r : Byte) : (s.writeLogic x r).run = s.run := by
  unfold State.writeLogic; split <;> rfl
@[simp] theorem State.writeLogic_fault (s : State) (x : RegIx) (r : Byte) : (s.writeLogic x r).fault = s.fault := by
  unfold State.writeLogic; split <;> rfl
@[simp] theorem State.writeLogic_wait (s : State) (x : RegIx) (r : Byte) : (s.writeLogic x r).wait = s.wait := by
  unfold State.writeLogic; split <;> rfl
@[simp] theorem State.writeLogic_keyPrev (s : State) (x : RegIx) (r : Byte) : (s.writeLogic x r).keyPrev = s.keyPrev := by
  unfold State.writeLogic; split <;> rfl
@[simp] theorem State.writeLogic_cfg (s : State) (x : RegIx) (r : Byte) : (s.writeLogic x r).cfg = s.cfg := by
  unfold State.writeLogic; split <;> rfl
@[simp] theorem State.writeLogic_draws (s : State) (x : RegIx) (r : Byte) : (s.writeLogic x r).draws = s.draws := by
  unfold State.writeLogic; split <;> rfl
@[simp] theorem State.writeLogic_agenda (s : State) (x : RegIx) (r : Byte) : (s.writeLogic x r).agenda = s.agenda := by
  unfold State.writeLogic; split <;> rfl
@[simp] theorem State.writeLogic_schedule (s : State) (x : RegIx) (r : Byte) : (s.writeLogic x r).schedule = s.schedule := by
  unfold State.writeLogic; split <;> rfl

/-! ### Reading through an update that leaves the register file or memory alone -/

@[simp] theorem State.readV_advance (s : State) (j : RegIx) : s.advance.readV j = s.readV j := rfl
@[simp] theorem State.readV_jumpTo (s : State) (w : Word) (j : RegIx) : (s.jumpTo w).readV j = s.readV j := rfl
@[simp] theorem State.readV_skipIf (s : State) (c : Bool) (j : RegIx) : (s.skipIf c).readV j = s.readV j := rfl
@[simp] theorem State.readV_setI (s : State) (w : Word) (j : RegIx) : (s.setI w).readV j = s.readV j := rfl
@[simp] theorem State.readV_storeBytes (s : State) (a : Nat) (bs : List Byte) (j : RegIx) : (s.storeBytes a bs).readV j = s.readV j := rfl
@[simp] theorem State.readV_setDisplay (s : State) (d : Display) (j : RegIx) : (s.setDisplay d).readV j = s.readV j := rfl
@[simp] theorem State.readV_setDt (s : State) (b : Byte) (j : RegIx) : (s.setDt b).readV j = s.readV j := rfl
@[simp] theorem State.readV_setSt (s : State) (b : Byte) (j : RegIx) : (s.setSt b).readV j = s.readV j := rfl
@[simp] theorem State.readV_setKeypad (s : State) (k : BitVec 16) (j : RegIx) : (s.setKeypad k).readV j = s.readV j := rfl
@[simp] theorem State.readV_setRun (s : State) (r : RunState) (j : RegIx) : (s.setRun r).readV j = s.readV j := rfl
@[simp] theorem State.readV_lookAtKeys (s : State) (w : Bool) (j : RegIx) : (s.lookAtKeys w).readV j = s.readV j := rfl
@[simp] theorem State.readV_drawn (s : State) (j : RegIx) : s.drawn.readV j = s.readV j := rfl
@[simp] theorem State.readV_halted (s : State) (c : FaultCode) (j : RegIx) : (s.halted c).readV j = s.readV j := rfl
@[simp] theorem State.readMem_advance (s : State) (c : Nat) : s.advance.readMem c = s.readMem c := rfl
@[simp] theorem State.readMem_jumpTo (s : State) (w : Word) (c : Nat) : (s.jumpTo w).readMem c = s.readMem c := rfl
@[simp] theorem State.readMem_skipIf (s : State) (c : Bool) (n : Nat) : (s.skipIf c).readMem n = s.readMem n := rfl
@[simp] theorem State.readMem_writeV (s : State) (x : RegIx) (b : Byte) (c : Nat) : (s.writeV x b).readMem c = s.readMem c := rfl
@[simp] theorem State.readMem_writeFlagged (s : State) (x : RegIx) (r f : Byte) (c : Nat) : (s.writeFlagged x r f).readMem c = s.readMem c := rfl
@[simp] theorem State.readMem_loadRegs (s : State) (bs : List Byte) (c : Nat) : (s.loadRegs bs).readMem c = s.readMem c := rfl
@[simp] theorem State.readMem_setI (s : State) (w : Word) (c : Nat) : (s.setI w).readMem c = s.readMem c := rfl
@[simp] theorem State.readMem_setDisplay (s : State) (d : Display) (c : Nat) : (s.setDisplay d).readMem c = s.readMem c := rfl
@[simp] theorem State.readMem_setDt (s : State) (b : Byte) (c : Nat) : (s.setDt b).readMem c = s.readMem c := rfl
@[simp] theorem State.readMem_setSt (s : State) (b : Byte) (c : Nat) : (s.setSt b).readMem c = s.readMem c := rfl
@[simp] theorem State.readMem_setKeypad (s : State) (k : BitVec 16) (c : Nat) : (s.setKeypad k).readMem c = s.readMem c := rfl
@[simp] theorem State.readMem_setRun (s : State) (r : RunState) (c : Nat) : (s.setRun r).readMem c = s.readMem c := rfl
@[simp] theorem State.readMem_lookAtKeys (s : State) (w : Bool) (c : Nat) : (s.lookAtKeys w).readMem c = s.readMem c := rfl
@[simp] theorem State.readMem_drawn (s : State) (c : Nat) : s.drawn.readMem c = s.readMem c := rfl
@[simp] theorem State.readMem_halted (s : State) (c : FaultCode) (n : Nat) : (s.halted c).readMem n = s.readMem n := rfl

end Sys2Proof.Machine
end

