-- ==== Sys2Proof/Laws/Registers.lean ====
section
/-! SUPPORT. Laws of the register, stack, operand and flag operations. -/

namespace Sys2Proof.Machine

/-! ### V registers (rules R22, R23) -/

@[simp] theorem State.readV_writeV (s : State) (x j : RegIx) (b : Byte) :
    (s.writeV x b).readV j = if j = x then b else s.readV j := by
  simp only [State.readV, State.writeV_v, Fin.getElem_fin, Vector.getElem_set, Fin.ext_iff, eq_comm]

/-- The flag is written last: it wins when the destination is VF (rule R23). -/
@[simp] theorem State.readV_writeFlagged (s : State) (x j : RegIx) (r f : Byte) :
    (s.writeFlagged x r f).readV j = if j = vf then f else if j = x then r else s.readV j := by
  simp only [State.writeFlagged, State.readV_writeV]

theorem State.readV_writeLogic (s : State) (x j : RegIx) (r : Byte) :
    (s.writeLogic x r).readV j =
      if s.cfg.logicVf = .reset ∧ j = vf then 0 else if j = x then r else s.readV j := by
  rw [State.writeLogic_eq]
  split <;> simp [*]

/-- Two states with the same `v` read alike. -/
theorem State.readV_congr {s t : State} (h : t.v = s.v) (x : RegIx) : t.readV x = s.readV x := by
  simp only [State.readV, h]

theorem getElem_loadInto (j : Nat) (bs : List Byte) (v : Vector Byte 16) (x : RegIx) :
    (loadInto j bs v)[x] = if j ≤ x.val ∧ x.val < j + bs.length then bs.getD (x.val - j) 0 else v[x] := by
  induction bs generalizing j v with
  | nil =>
    have : ¬ (j ≤ x.val ∧ x.val < j + 0) := by omega
    simp only [loadInto, List.length_nil, this, if_false]
  | cons b bs ih =>
    rw [loadInto, ih, List.length_cons]
    by_cases h1 : j + 1 ≤ x.val ∧ x.val < j + 1 + bs.length
    · have h2 : j ≤ x.val ∧ x.val < j + (bs.length + 1) := by omega
      rw [if_pos h1, if_pos h2, show x.val - j = (x.val - (j + 1)) + 1 by omega, List.getD_cons_succ]
    · rw [if_neg h1]
      by_cases h3 : x.val = j
      · have h2 : j ≤ x.val ∧ x.val < j + (bs.length + 1) := by omega
        rw [if_pos h2]
        simp [h3]
      · have h2 : ¬ (j ≤ x.val ∧ x.val < j + (bs.length + 1)) := by omega
        rw [if_neg h2]
        have : j ≠ x.val := fun e => h3 e.symm
        simp [this]

/-- What a register holds after a block load of `n + 1` bytes (rule R145). -/
theorem State.readV_loadRegs (s : State) (m : Memory) (a n : Nat) (x : RegIx) :
    (s.loadRegs (m.readBytes a n)).readV x = if x.val < n then m.read (a + x.val) else s.readV x := by
  simp only [State.readV, State.loadRegs_v, getElem_loadInto, Memory.readBytes_length, Nat.zero_le, true_and, Nat.zero_add,
    Nat.sub_zero]
  split
  · rename_i h
    rw [List.getD_eq_getElem _ _ (by simpa using h), Memory.readBytes_getElem _ _ _ _ h]
  · rfl

@[simp] theorem State.regsThrough_length (s : State) (x : RegIx) : (s.regsThrough x).length = x.val + 1 := by
  simp [State.regsThrough]

theorem State.regsThrough_getElem (s : State) (x j : RegIx) (h : j.val ≤ x.val) :
    (s.regsThrough x)[j.val]'(by simp; omega) = s.readV j := by
  simp [State.regsThrough, State.readV]

/-! ### Memory and fetch through the state -/

@[simp] theorem State.readMem_storeBytes_mem (s : State) (a : Nat) (bs : List Byte) (c : Nat) :
    (s.storeBytes a bs).readMem c = (s.mem.writeBytes a bs).read c := rfl

theorem State.readMem_congr {s t : State} (h : t.mem = s.mem) (a : Nat) : t.readMem a = s.readMem a := by
  simp only [State.readMem, h]

theorem State.fetchWord_congr {s t : State} (hm : t.mem = s.mem) (hp : t.pc = s.pc) : t.fetchWord = s.fetchWord := by
  simp only [State.fetchWord, State.readMem, hm, hp]

theorem accessOk_iff {base n : Nat} : accessOk base n = true ↔ n = 0 ∨ base + n ≤ 4096 := by
  simp [accessOk]

/-! ### The return stack (rules R26, R27) -/

/-- Everything a push can do. -/
theorem State.push_cases (s : State) (w : Word) :
    (s.sp.val = 12 ∧ s.push w = none) ∨
      (∃ h : s.sp.val < 12, s.push w =
        some { s with stack := s.stack.set s.sp.val w h, sp := ⟨s.sp.val + 1, Nat.succ_lt_succ h⟩ }) := by
  by_cases h : s.sp.val < 12
  · exact .inr ⟨h, by simp [State.push, h]⟩
  · have := s.sp.isLt
    exact .inl ⟨by omega, by simp [State.push, h]⟩

/-- Everything a pop can do. -/
theorem State.pop_cases (s : State) :
    (s.sp.val = 0 ∧ s.pop = none) ∨
      (∃ (h : s.sp.val - 1 < 12) (h' : s.sp.val - 1 < 13), 0 < s.sp.val ∧
        s.pop = some (s.stack[s.sp.val - 1], { s with sp := ⟨s.sp.val - 1, h'⟩ })) := by
  have := s.sp.isLt
  by_cases h : 0 < s.sp.val
  · exact .inr ⟨by omega, by omega, h, by simp [State.pop, h]⟩
  · exact .inl ⟨by omega, by simp [State.pop, h]⟩

/-! ### Operands -/

@[simp] theorem absoluteTarget_toNat (nnn : Addr12) : (absoluteTarget nnn).toNat = nnn.toNat := by
  have := nnn.isLt
  simp [absoluteTarget]; omega

@[simp] theorem indexedTarget_toNat (b : Byte) (nnn : Addr12) : (indexedTarget b nnn).toNat = b.toNat + nnn.toNat := by
  have := nnn.isLt
  have := b.isLt
  simp [indexedTarget]; omega

@[simp] theorem indexPlus_toNat (i : Word) (b : Byte) : (indexPlus i b).toNat = (i.toNat + b.toNat) % 65536 := by
  have := b.isLt
  simp [indexPlus]

@[simp] theorem glyphAddress_toNat (b : Byte) : (glyphAddress b).toNat = b.toNat * 5 := by
  have := b.isLt
  simp [glyphAddress]; omega

@[simp] theorem indexAfterBlock_toNat (i : Word) (x : RegIx) :
    (indexAfterBlock i x).toNat = (i.toNat + x.val + 1) % 65536 := by
  simp [indexAfterBlock, Nat.add_assoc]

@[simp] theorem decimalDigits_length (b : Byte) : (decimalDigits b).length = 3 := rfl

theorem keyNamed_of_lt {b : Byte} (h : b.toNat < 16) : keyNamed b = some ⟨b.toNat, h⟩ := by
  simp [keyNamed, h]

theorem keyNamed_of_ge {b : Byte} (h : ¬ b.toNat < 16) : keyNamed b = none := by
  simp [keyNamed, h]

/-- The least key is set, and no lesser one is (rule R163). -/
theorem leastKey_eq_some {r : BitVec 16} {k : KeyIx} :
    leastKey r = some k ↔ r.getLsbD k.val = true ∧ ∀ j : KeyIx, j < k → r.getLsbD j.val = false := by
  unfold leastKey
  constructor
  · intro h
    refine ⟨by simpa using List.find?_some h, fun j hj => ?_⟩
    obtain ⟨_, as, bs, hl, hno⟩ := List.find?_eq_some_iff_append.1 h
    have hj' : j ∈ as ++ k :: bs := hl ▸ List.mem_finRange j
    have hs : (as ++ k :: bs).Pairwise (· < ·) := hl ▸ List.pairwise_lt_finRange 16
    rcases List.mem_append.1 hj' with ha | hb
    · simpa using hno j ha
    · rcases List.mem_cons.1 hb with rfl | hb'
      · exact absurd hj (lt_irrefl _)
      · have hkj := (List.pairwise_cons.1 (List.pairwise_append.1 hs).2.1).1 j hb'
        exact absurd hj (not_lt_of_gt hkj)
  · rintro ⟨hk, hl⟩
    cases hf : (List.finRange 16).find? (fun k => r.getLsbD k.val) with
    | none =>
      rw [List.find?_eq_none] at hf
      exact absurd hk (hf k (List.mem_finRange k))
    | some j =>
      have hj : r.getLsbD j.val = true := by simpa using List.find?_some hf
      rcases lt_trichotomy j k with h | h | h
      · exact absurd hj (by rw [hl j h]; decide)
      · rw [h]
      · obtain ⟨_, as, bs, hs', hno⟩ := List.find?_eq_some_iff_append.1 hf
        have hk' : k ∈ as ++ j :: bs := hs' ▸ List.mem_finRange k
        have hs : (as ++ j :: bs).Pairwise (· < ·) := hs' ▸ List.pairwise_lt_finRange 16
        rcases List.mem_append.1 hk' with ha | hb
        · exact absurd hk (by simpa using hno k ha)
        · rcases List.mem_cons.1 hb with rfl | hb'
          · rfl
          · have hjk := (List.pairwise_cons.1 (List.pairwise_append.1 hs).2.1).1 k hb'
            exact absurd h (not_lt_of_gt hjk)

theorem leastKey_eq_none {r : BitVec 16} : leastKey r = none ↔ r = 0 := by
  unfold leastKey
  rw [List.find?_eq_none]
  constructor
  · intro h
    ext i hi
    have := h ⟨i, hi⟩ (List.mem_finRange _)
    simpa [BitVec.getLsbD_eq_getElem hi] using this
  · rintro rfl
    simp

/-! ### Flags (rule R23) -/

@[simp] theorem flagByte_toNat (b : Bool) : (flagByte b).toNat = if b then 1 else 0 := by
  cases b <;> rfl

theorem flagByte_eq_zero_or_one (b : Bool) : flagByte b = 0 ∨ flagByte b = 1 := by
  cases b <;> simp [flagByte]

theorem lowBitOut_toNat (b : Byte) : (lowBitOut b).toNat = b.toNat % 2 := by
  simp only [lowBitOut, flagByte_toNat, BitVec.getLsbD, Nat.testBit_zero]
  rcases Nat.mod_two_eq_zero_or_one b.toNat with h | h <;> simp [h]

theorem highBitOut_toNat (b : Byte) : (highBitOut b).toNat = b.toNat / 128 := by
  have := b.isLt
  simp only [highBitOut, flagByte_toNat, BitVec.getLsbD, Nat.testBit_eq_decide_div_mod_eq]
  have h : b.toNat / 2 ^ 7 % 2 = b.toNat / 128 := by omega
  rw [h]
  have : b.toNat / 128 = 0 ∨ b.toNat / 128 = 1 := by omega
  rcases this with h | h <;> simp [h]

end Sys2Proof.Machine
end

