-- ==== Sys2Proof/Laws/Display.lean ====
section
/-! SUPPORT. Laws of the display and of sprite drawing: what each pixel is after a row and after a sprite, and when a
collision is reported (43_display.md rule R151). -/

namespace Sys2Proof.Machine

/-! ### One pixel -/

theorem pixel_of_lt (d : Display) {y x : Nat} (hy : y < 32) (hx : x < 64) :
    pixel d y x = d[y][x] := by
  simp [pixel, hy, hx]

theorem pixel_outside (d : Display) {y x : Nat} (h : ¬ (y < 32 ∧ x < 64)) : pixel d y x = false := by
  simp only [pixel, h, dite_false]

@[simp] theorem pixel_blankDisplay (y x : Nat) : pixel blankDisplay y x = false := by
  unfold pixel blankDisplay; split <;> simp

/-- Two displays with the same pixels are the same. -/
theorem display_ext {d d' : Display} (h : ∀ y x, y < 32 → x < 64 → pixel d y x = pixel d' y x) : d = d' := by
  apply Vector.ext
  intro y hy
  apply Vector.ext
  intro x hx
  have := h y x hy hx
  rwa [pixel_of_lt d hy hx, pixel_of_lt d' hy hx] at this

/-- What any pixel is after one pixel is drawn. -/
theorem pixel_xorPixel (d : Display) (y x : Nat) (b : Bool) (y' x' : Nat) :
    pixel (xorPixel y x b d) y' x' =
      if y' = y ∧ x' = x ∧ y < 32 ∧ x < 64 then (pixel d y x ^^ b) else pixel d y' x' := by
  by_cases h : y < 32 ∧ x < 64
  · have e : xorPixel y x b d = d.set y ((d[y]'h.1).set x ((d[y]'h.1)[x]'h.2 ^^ b) h.2) h.1 := by
      simp only [xorPixel, h, and_self, dite_true]
    rw [e]
    by_cases h' : y' < 32 ∧ x' < 64
    · rw [pixel_of_lt _ h'.1 h'.2, pixel_of_lt _ h'.1 h'.2, pixel_of_lt _ h.1 h.2]
      by_cases hy : y = y'
      · subst hy
        by_cases hx : x = x'
        · subst hx; simp [h.1, h.2]
        · have : ¬ x' = x := fun e => hx e.symm
          simp [hx, this]
      · have : ¬ y' = y := fun e => hy e.symm
        simp [hy, this]
    · rw [pixel_outside _ h', pixel_outside _ h', if_neg]
      rintro ⟨rfl, rfl, h1, h2⟩
      exact h' ⟨h1, h2⟩
  · have e : xorPixel y x b d = d := by simp only [xorPixel, h, dite_false]
    rw [e, if_neg]
    rintro ⟨-, -, h1, h2⟩
    exact h ⟨h1, h2⟩

/-! ### One sprite row -/

/-- The bit of a row drawn from column `x` that falls on column `c`; false beside the row. -/
def rowBit (x : Nat) (bits : List Bool) (c : Nat) : Bool := decide (x ≤ c) && bits.getD (c - x) false

theorem rowBit_cons (x : Nat) (b : Bool) (bs : List Bool) (c : Nat) :
    rowBit x (b :: bs) c = if c = x then b else rowBit (x + 1) bs c := by
  unfold rowBit
  split
  · rename_i h; subst h; simp
  · rename_i h
    by_cases hc : x ≤ c
    · have h1 : x + 1 ≤ c := by omega
      rw [show c - x = (c - (x + 1)) + 1 by omega]
      simp [hc, h1]
    · have h1 : ¬ x + 1 ≤ c := by omega
      simp [hc, h1]

/-- What any pixel is after one sprite row: the row's bit is added, and nothing beyond the right edge is drawn. -/
theorem pixel_drawBits (y : Nat) (hy : y < 32) (bits : List Bool) (x : Nat) (acc : Display × Bool) (y' x' : Nat)
    (hx' : x' < 64) :
    pixel (drawBits y x bits acc).1 y' x' =
      if y' = y then (pixel acc.1 y' x' ^^ rowBit x bits x') else pixel acc.1 y' x' := by
  induction bits generalizing x acc with
  | nil => simp [drawBits, rowBit]
  | cons b bs ih =>
    obtain ⟨d, f⟩ := acc
    rw [drawBits]
    split
    · rename_i hx
      have : rowBit x (b :: bs) x' = false := by
        have : ¬ x ≤ x' := by omega
        simp [rowBit, this]
      simp [this]
    · rename_i hx
      have hx : x < 64 := by omega
      rw [ih, rowBit_cons]
      simp only [pixel_xorPixel]
      by_cases h1 : y' = y
      · subst h1
        by_cases h2 : x' = x
        · subst h2
          have : rowBit (x' + 1) bs x' = false := by simp [rowBit]
          simp [this, hy, hx]
        · simp [h2]
      · simp [h1]

/-- When one sprite row reports a collision: before it, or at a column where the row's bit and the pixel are both on. -/
theorem drawBits_collision (y : Nat) (bits : List Bool) (x : Nat) (acc : Display × Bool) :
    (drawBits y x bits acc).2 = true ↔
      acc.2 = true ∨ ∃ c, c < 64 ∧ rowBit x bits c = true ∧ pixel acc.1 y c = true := by
  induction bits generalizing x acc with
  | nil => simp [drawBits, rowBit]
  | cons b bs ih =>
    obtain ⟨d, f⟩ := acc
    rw [drawBits]
    split
    · rename_i hx
      constructor
      · exact .inl
      · rintro (h | ⟨c, hc, hb, -⟩)
        · exact h
        · have : ¬ x ≤ c := by omega
          simp [rowBit, this] at hb
    · rename_i hx
      rw [ih]
      simp only [pixel_xorPixel, rowBit_cons, Bool.or_eq_true, Bool.and_eq_true]
      constructor
      · rintro ((h | h) | ⟨c, hc, hb, hp⟩)
        · exact .inl h
        · exact .inr ⟨x, by omega, by simpa using h.1, h.2⟩
        · have hcx : c ≠ x := by
            rintro rfl; simp [rowBit] at hb
          exact .inr ⟨c, hc, by simpa [hcx] using hb, by simpa [hcx] using hp⟩
      · rintro (h | ⟨c, hc, hb, hp⟩)
        · exact .inl (.inl h)
        · by_cases hcx : c = x
          · subst hcx
            exact .inl (.inr ⟨by simpa using hb, hp⟩)
          · exact .inr ⟨c, hc, by simpa [hcx] using hb, by simpa [hcx] using hp⟩

/-! ### A whole sprite -/

/-- The sprite bit that falls on row `r`, column `c`, of a sprite drawn from row `y`, column `x0`; false beside it. -/
def spriteBit (x0 y : Nat) (bytes : List Byte) (r c : Nat) : Bool :=
  decide (y ≤ r ∧ r < y + bytes.length ∧ x0 ≤ c ∧ c < x0 + 8) && (bytes.getD (r - y) 0).getLsbD (7 - (c - x0))

theorem rowBit_spriteBits (x0 : Nat) (b : Byte) (c : Nat) :
    rowBit x0 (spriteBits b) c = (decide (x0 ≤ c ∧ c < x0 + 8) && b.getLsbD (7 - (c - x0))) := by
  unfold rowBit spriteBits
  by_cases h : x0 ≤ c
  · by_cases h8 : c < x0 + 8
    · obtain ⟨k, rfl⟩ : ∃ k, c = x0 + k := ⟨c - x0, by omega⟩
      have hk : k < 8 := by omega
      simp only [Nat.add_sub_cancel_left, h, h8, and_self, decide_true, Bool.true_and]
      interval_cases k <;> rfl
    · have : ¬ (x0 ≤ c ∧ c < x0 + 8) := by omega
      have h9 : 8 ≤ c - x0 := by omega
      simp only [this, decide_false, Bool.false_and, Bool.and_eq_false_iff]
      right
      rw [List.getD_eq_default]
      simpa using h9
  · simp [h]

theorem spriteBit_cons (x0 y : Nat) (b : Byte) (bs : List Byte) (r c : Nat) :
    spriteBit x0 y (b :: bs) r c = if r = y then rowBit x0 (spriteBits b) c else spriteBit x0 (y + 1) bs r c := by
  unfold spriteBit
  rw [rowBit_spriteBits]
  split
  · rename_i h
    subst h
    simp
  · rename_i h
    by_cases hr : y ≤ r
    · rw [show r - y = (r - (y + 1)) + 1 by omega]
      have e : (y ≤ r ∧ r < y + (b :: bs).length ∧ x0 ≤ c ∧ c < x0 + 8) ↔
          (y + 1 ≤ r ∧ r < y + 1 + bs.length ∧ x0 ≤ c ∧ c < x0 + 8) := by
        rw [List.length_cons]; omega
      simp only [e, List.getD_cons_succ]
    · have e1 : ¬ (y ≤ r ∧ r < y + (b :: bs).length ∧ x0 ≤ c ∧ c < x0 + 8) := by omega
      have e2 : ¬ (y + 1 ≤ r ∧ r < y + 1 + bs.length ∧ x0 ≤ c ∧ c < x0 + 8) := by omega
      simp only [e1, e2, decide_false, Bool.false_and]

/-- What any pixel is after a sprite that fits above the bottom edge: its bit is added (rule R151). -/
theorem pixel_drawRows (x0 : Nat) (bytes : List Byte) (y : Nat) (hy : y + bytes.length ≤ 32)
    (acc : Display × Bool) (r c : Nat) (hc : c < 64) :
    pixel (drawRows x0 y bytes acc).1 r c = (pixel acc.1 r c ^^ spriteBit x0 y bytes r c) := by
  induction bytes generalizing y acc with
  | nil =>
    have : spriteBit x0 y [] r c = false := by
      have : ¬ (y ≤ r ∧ r < y + ([] : List Byte).length ∧ x0 ≤ c ∧ c < x0 + 8) := by simp; omega
      simp only [spriteBit, this, decide_false, Bool.false_and]
    simp [drawRows, this]
  | cons b bs ih =>
    rw [List.length_cons] at hy
    rw [drawRows, ih (y + 1) (by omega), pixel_drawBits y (by omega) _ _ _ _ _ hc, spriteBit_cons]
    by_cases h : r = y
    · subst h
      have : spriteBit x0 (r + 1) bs r c = false := by
        have : ¬ (r + 1 ≤ r ∧ r < r + 1 + bs.length ∧ x0 ≤ c ∧ c < x0 + 8) := by omega
        simp only [spriteBit, this, decide_false, Bool.false_and]
      simp [this]
    · simp [h]

/-- When a sprite reports a collision (rule R151): some sprite bit meets a pixel that was on before the instruction. -/
theorem drawRows_collision (x0 : Nat) (bytes : List Byte) (y : Nat) (hy : y + bytes.length ≤ 32)
    (acc : Display × Bool) :
    (drawRows x0 y bytes acc).2 = true ↔
      acc.2 = true ∨ ∃ r c, r < 32 ∧ c < 64 ∧ spriteBit x0 y bytes r c = true ∧
        pixel acc.1 r c = true := by
  induction bytes generalizing y acc with
  | nil =>
    have : ∀ r c, spriteBit x0 y [] r c = false := fun r c => by
      have : ¬ (y ≤ r ∧ r < y + ([] : List Byte).length ∧ x0 ≤ c ∧ c < x0 + 8) := by simp; omega
      simp only [spriteBit, this, decide_false, Bool.false_and]
    simp [drawRows, this]
  | cons b bs ih =>
    rw [List.length_cons] at hy
    have below : ∀ c, spriteBit x0 (y + 1) bs y c = false := fun c => by
      have : ¬ (y + 1 ≤ y ∧ y < y + 1 + bs.length ∧ x0 ≤ c ∧ c < x0 + 8) := by omega
      simp only [spriteBit, this, decide_false, Bool.false_and]
    rw [drawRows, ih (y + 1) (by omega), drawBits_collision]
    constructor
    · rintro ((h | ⟨c, hc, hb, hp⟩) | ⟨r, c, hr, hc, hb, hp⟩)
      · exact .inl h
      · exact .inr ⟨y, c, by omega, hc, by simpa [spriteBit_cons] using hb, hp⟩
      · have hne : r ≠ y := by
          rintro rfl; rw [below] at hb; exact absurd hb (by decide)
        rw [pixel_drawBits y (by omega) _ _ _ _ _ hc, if_neg hne] at hp
        exact .inr ⟨r, c, hr, hc, by rw [spriteBit_cons, if_neg hne]; exact hb, hp⟩
    · rintro (h | ⟨r, c, hr, hc, hb, hp⟩)
      · exact .inl (.inl h)
      · rw [spriteBit_cons] at hb
        by_cases hry : r = y
        · subst hry
          exact .inl (.inr ⟨c, hc, by simpa using hb, hp⟩)
        · rw [if_neg hry] at hb
          refine .inr ⟨r, c, hr, hc, hb, ?_⟩
          rw [pixel_drawBits y (by omega) _ _ _ _ _ hc, if_neg hry]
          exact hp

theorem spriteRows_le (n : Height) (y0 : Nat) (h : y0 ≤ 32) : y0 + spriteRows n y0 ≤ 32 := by
  unfold spriteRows; omega

theorem spriteColumn_lt (b : Byte) : spriteColumn b < 64 := Nat.mod_lt _ (by decide)

theorem spriteRow_lt (b : Byte) : spriteRow b < 32 := Nat.mod_lt _ (by decide)

end Sys2Proof.Machine
end

