-- ==== Sys2Proof/Laws/Frames.lean ====
section
/-! SUPPORT. Laws of frames, of the encodings as claims name them, and of the actions around `exec`. -/

namespace Sys2Proof.Machine

/-! ### Frames -/

theorem Part.same_refl (p : Part) (s : State) : p.same s s := by
  cases p <;> simp [Part.same]

theorem Part.same_trans {p : Part} {s t u : State} (h : p.same s t) (h' : p.same t u) : p.same s u := by
  cases p <;> simp_all [Part.same]

theorem keeps_refl (l : List Part) (s : State) : Keeps l s s := fun p _ => p.same_refl s

theorem keeps_trans {l : List Part} {s t u : State} (h : Keeps l s t) (h' : Keeps l t u) : Keeps l s u :=
  fun p hp => Part.same_trans (h p hp) (h' p hp)

/-- A frame may be widened. -/
theorem keeps_mono {l l' : List Part} {s t : State} (h : Keeps l s t) (hl : ∀ p ∈ l, p ∈ l') : Keeps l' s t :=
  fun p hp => h p fun hin => hp (hl p hin)

/-! ### Fault entry (60_exceptions.md rule R176) -/

theorem raise_eq (c : FaultCode) (s : State) : raise c s = .next { s with fault := c, run := .halted } := rfl

theorem keeps_halted (c : FaultCode) (s : State) : Keeps [.fault, .run] s (s.halted c) := by
  intro p hp
  cases p <;> simp_all [Part.same, State.readV, State.readMem]

theorem faultsWith_of_raise {c : FaultCode} {i : Instr} {s : State} (h : exec i s = raise c s) : FaultsWith c i s :=
  ⟨s.halted c, h, rfl, rfl, keeps_halted c s⟩

/-! ### Encodings -/

/-- A row of the opcode map selects its instruction (30_encoding.md rules R76, R77). -/
theorem selectedBy_of_mem {r : OpcodeRow} (h : r ∈ opcodeTable) : SelectedBy r.mask r.pattern r.build :=
  fun w hw => decodeWord_of_row h (by simpa [OpcodeRow.selects] using hw)

/-! ### The step around `exec` (00_scope.md rule R6, 40_control_flow.md rule R100) -/

theorem State.planned_of_none {s : State} (h : s.schedule = none) : s.planned = s := by
  simp [State.planned, h]

theorem State.popAgenda_of_nil {s : State} (hd : s.schedule = none) (h : s.agenda = []) : s.popAgenda = s := by
  cases s
  simp only at h hd
  subst h hd
  rfl

theorem State.popAgenda_of_cons {s : State} {a : Action} {l : List Action} (hd : s.schedule = none) (h : s.agenda = a :: l) :
    s.popAgenda = { s with agenda := l } := by
  rw [State.popAgenda, State.planned_of_none hd, h]
  rfl

theorem State.nextAction_of_nil {s : State} (hd : s.schedule = none) (h : s.agenda = []) : s.nextAction = .step := by
  simp [State.nextAction, State.planned_of_none hd, h]

theorem State.nextAction_of_cons {s : State} {a : Action} {l : List Action} (hd : s.schedule = none) (h : s.agenda = a :: l) :
    s.nextAction = a := by
  simp [State.nextAction, State.planned_of_none hd, h]

/-- Taking the next action off the agenda leaves the whole machine as it is. -/
theorem keeps_popAgenda (s : State) : Keeps [.agenda, .schedule] s s.popAgenda := by
  intro p hp
  cases p <;> simp_all [Part.same]

/-- Under a schedule, an enabled action on the agenda is what comes next; those before it are passed over. -/
theorem State.planned_of_enabled {s : State} {d : Schedule} {a : Action} {l : List Action} (hd : s.schedule = some d)
    (h : firstEnabled s.run s.agenda = a :: l) : s.planned = { s with agenda := a :: l } := by
  simp only [State.planned, hd, h]

/-- Under a schedule, a frame that is over is followed by the next one while the machine is not Halted. -/
theorem State.planned_of_frame_over {s : State} {d : Schedule} (hd : s.schedule = some d)
    (h : firstEnabled s.run s.agenda = []) (hr : s.run ≠ .halted) : s.planned = s.beginFrame d := by
  simp only [State.planned, hd, h]

/-- Under a schedule, a frame that is over is the last once the machine is Halted. -/
theorem State.planned_of_halted {s : State} {d : Schedule} (hd : s.schedule = some d)
    (h : firstEnabled s.run s.agenda = []) (hr : s.run = .halted) : s.planned = { s with agenda := [] } := by
  simp only [State.planned, hd, h]
  rw [hr]

/-- While the machine is not running, the burst of a frame is passed over. -/
theorem firstEnabled_burst {r : RunState} (hr : r ≠ .running) (n : Nat) (l : List Action) :
    firstEnabled r (List.replicate n .step ++ Action.observe :: l) = .observe :: l := by
  induction n with
  | zero => simp [firstEnabled, enabled]
  | succ n ih =>
    have : enabled r .step = false := by cases r <;> first | rfl | exact absurd rfl hr
    simpa [firstEnabled, List.replicate_succ, this] using ih

theorem keeps_withPlan (l : List Action) (d : Option Schedule) (s : State) : Keeps [.agenda, .schedule] s (s.withPlan l d) := by
  intro p hp
  cases p <;> first | (simp at hp; done) | rfl | (intro _; rfl)

/-- Everything a `Step` can do. -/
theorem doStep_cases (s : State) :
    (s.run ≠ .running ∧ doStep s = .fault (.notEnabled .step)) ∨
      (s.run = .running ∧ 4094 < s.pc.toNat ∧ doStep s = raise .memOutOfRange s) ∨
      (s.run = .running ∧ s.pc.toNat ≤ 4094 ∧ doStep s = exec (decodeWord s.fetchWord) s) := by
  unfold doStep runInstruction notEnabled
  cases hr : s.run with
  | running =>
    by_cases h : s.pc.toNat ≤ 4094
    · have ha : accessOk s.pc.toNat 2 = true := accessOk_iff.2 (.inr (by omega))
      exact .inr (.inr ⟨rfl, h, by simp [ha]⟩)
    · have ha : accessOk s.pc.toNat 2 = false := by
        rw [← Bool.not_eq_true, accessOk_iff]; omega
      exact .inr (.inl ⟨rfl, by omega, by simp [ha]⟩)
  | paused => exact .inl ⟨by decide, rfl⟩
  | halted => exact .inl ⟨by decide, rfl⟩

/-- No instruction reads or writes the plan. -/
theorem exec_next_withPlan {i : Instr} {s t : State} (h : exec i s = .next t) (l : List Action) (d : Option Schedule) :
    exec i (State.withPlan l d s) = .next (State.withPlan l d t) := by
  cases i <;> simp only [exec] at h ⊢
  case ret =>
    unfold execRet State.pop at *
    by_cases h0 : 0 < s.sp.val
    · rw [dif_pos (show 0 < s.advance.sp.val from h0)] at h
      rw [dif_pos (show 0 < (State.withPlan l d s).advance.sp.val from h0)]
      injection h with h; subst h; rfl
    · rw [dif_neg (show ¬ 0 < s.advance.sp.val from h0)] at h
      rw [dif_neg (show ¬ 0 < (State.withPlan l d s).advance.sp.val from h0)]
      injection h with h; subst h; rfl
  case call n =>
    unfold execCall State.push at *
    by_cases h0 : s.sp.val < 12
    · rw [dif_pos (show s.advance.sp.val < 12 from h0)] at h
      rw [dif_pos (show (State.withPlan l d s).advance.sp.val < 12 from h0)]
      injection h with h; subst h; rfl
    · rw [dif_neg (show ¬ s.advance.sp.val < 12 from h0)] at h
      rw [dif_neg (show ¬ (State.withPlan l d s).advance.sp.val < 12 from h0)]
      injection h with h; subst h; rfl
  case skp x =>
    unfold execSkp at *
    rw [show (State.withPlan l d s).readV x = s.readV x from rfl]
    cases hk : keyNamed (s.readV x) <;> rw [hk] at h <;> injection h with h <;> subst h <;> rfl
  case sknp x =>
    unfold execSknp at *
    rw [show (State.withPlan l d s).readV x = s.readV x from rfl]
    cases hk : keyNamed (s.readV x) <;> rw [hk] at h <;> injection h with h <;> subst h <;> rfl
  case ldVxK x =>
    unfold execLdVxK at *
    rw [show (State.withPlan l d s).wait = s.wait from rfl, show (State.withPlan l d s).risingKeys = s.risingKeys from rfl]
    cases hw : s.wait <;> rw [hw] at h
    · injection h with h; subst h; rfl
    · simp only at h ⊢
      cases hk : leastKey s.risingKeys <;> rw [hk] at h <;> injection h with h <;> subst h <;> rfl
  case ldB x =>
    unfold execLdB at *
    rw [show (State.withPlan l d s).i = s.i from rfl]
    by_cases hc : accessOk s.i.toNat 3 = true
    · rw [if_pos hc] at h ⊢; injection h with h; subst h; rfl
    · rw [if_neg hc] at h ⊢; injection h with h; subst h; rfl
  case ldMemVx x =>
    unfold execLdMemVx at *
    rw [show (State.withPlan l d s).i = s.i from rfl]
    by_cases hc : accessOk s.i.toNat (x.val + 1) = true
    · rw [if_pos hc] at h ⊢; injection h with h; subst h; rfl
    · rw [if_neg hc] at h ⊢; injection h with h; subst h; rfl
  case ldVxMem x =>
    unfold execLdVxMem at *
    rw [show (State.withPlan l d s).i = s.i from rfl]
    by_cases hc : accessOk s.i.toNat (x.val + 1) = true
    · rw [if_pos hc] at h ⊢; injection h with h; subst h; rfl
    · rw [if_neg hc] at h ⊢; injection h with h; subst h; rfl
  case drw x y n =>
    unfold execDrw at *
    rw [show (State.withPlan l d s).i = s.i from rfl, show (State.withPlan l d s).readV y = s.readV y from rfl]
    by_cases hc : accessOk s.i.toNat (spriteRows n (spriteRow (s.readV y))) = true
    · rw [if_pos hc] at h ⊢; injection h with h; subst h; rfl
    · rw [if_neg hc] at h ⊢; injection h with h; subst h; rfl
  case orReg x y =>
    unfold execOrReg State.writeLogic at *
    rw [show (State.withPlan l d s).advance.cfg = s.advance.cfg from rfl]
    cases hc : s.advance.cfg.logicVf <;> rw [hc] at h <;> injection h with h <;> subst h <;> rfl
  case andReg x y =>
    unfold execAndReg State.writeLogic at *
    rw [show (State.withPlan l d s).advance.cfg = s.advance.cfg from rfl]
    cases hc : s.advance.cfg.logicVf <;> rw [hc] at h <;> injection h with h <;> subst h <;> rfl
  case xorReg x y =>
    unfold execXorReg State.writeLogic at *
    rw [show (State.withPlan l d s).advance.cfg = s.advance.cfg from rfl]
    cases hc : s.advance.cfg.logicVf <;> rw [hc] at h <;> injection h with h <;> subst h <;> rfl
  all_goals (injection h with h; subst h; rfl)

/-- No action reads or writes the plan. -/
theorem act_next_withPlan {a : Action} {s t : State} (h : act a s = .next t) (l : List Action) (d : Option Schedule) :
    act a (State.withPlan l d s) = .next (State.withPlan l d t) := by
  cases a with
  | step =>
    rcases doStep_cases s with ⟨_, e⟩ | ⟨hr, hp, e⟩ | ⟨hr, hp, e⟩
    · simp only [act] at h; rw [e] at h; cases h
    · simp only [act] at h ⊢
      rcases doStep_cases (State.withPlan l d s) with ⟨q, _⟩ | ⟨_, _, e'⟩ | ⟨_, q, _⟩
      · exact absurd hr q
      · rw [e']; rw [e] at h; injection h with h; subst h; rfl
      · exact absurd hp (Nat.not_lt.2 q)
    · simp only [act] at h ⊢
      rcases doStep_cases (State.withPlan l d s) with ⟨q, _⟩ | ⟨_, q, _⟩ | ⟨_, _, e'⟩
      · exact absurd hr q
      · exact absurd q (Nat.not_lt.2 hp)
      · rw [e']; rw [e] at h; exact exec_next_withPlan h l d
  | tick =>
    simp only [act, doTick, show (State.withPlan l d s).run = s.run from rfl] at *
    cases hr : s.run <;> rw [hr] at h <;> first | (cases h; done) | (injection h with h; subst h; rfl)
  | input e =>
    cases e with
    | keyDown k =>
      simp only [act, doInput, doKey, show (State.withPlan l d s).run = s.run from rfl] at *
      cases hr : s.run <;> rw [hr] at h <;> first | (cases h; done) | (injection h with h; subst h; rfl)
    | keyUp k =>
      simp only [act, doInput, doKey, show (State.withPlan l d s).run = s.run from rfl] at *
      cases hr : s.run <;> rw [hr] at h <;> first | (cases h; done) | (injection h with h; subst h; rfl)
    | pauseToggle => simp only [act, doInput] at *; injection h with h; subst h; rfl
    | quit => simp only [act, doInput] at *; injection h with h; subst h; rfl
  | observe => simp only [act] at *; injection h with h; subst h; rfl

@[simp] theorem countDown_toNat (b : Byte) : (countDown b).toNat = b.toNat - 1 := by
  have hb := b.isLt
  unfold countDown
  split
  · rename_i h; subst h; rfl
  · rename_i h
    have h0 : b.toNat ≠ 0 := fun e => h (BitVec.eq_of_toNat_eq (by simpa using e))
    rw [BitVec.toNat_sub]
    simp only [BitVec.ofNat_eq_ofNat, BitVec.toNat_ofNat]; omega

/-- What each key is after a key event (60_exceptions.md rule R181). -/
theorem getLsbD_withKey (k j : KeyIx) (down : Bool) (kp : BitVec 16) :
    (withKey k down kp).getLsbD j.val = if j = k then down else kp.getLsbD j.val := by
  have hj := j.isLt
  have hk := k.isLt
  unfold withKey
  by_cases h : j = k
  · subst h
    cases down <;> simp
  · have hne : j.val ≠ k.val := fun e => h (Fin.ext e)
    rw [if_neg h]
    cases down
    · by_cases hlt : j.val < k.val
      · simp [hlt]
      · have : j.val - k.val ≠ 0 := by omega
        simp [this]
    · by_cases hlt : j.val < k.val
      · simp [hlt]
      · have : j.val - k.val ≠ 0 := by omega
        simp [this]

end Sys2Proof.Machine
end

