-- ==== Sys2Proof/Laws/PerInstr.lean ====
section
/-! SUPPORT. Families of statements about every instruction as written: one lemma per constructor. -/

namespace Sys2Proof.Laws.EncodesRow

/-- The mask and the pattern of the instruction's row in the opcode map (30_encoding.md rule R76). -/
def maskAndPattern : Instr → Word × Word
  | .cls => (0xFFFF, 0x00E0)
  | .ret => (0xFFFF, 0x00EE)
  | .jp _ => (0xF000, 0x1000)
  | .call _ => (0xF000, 0x2000)
  | .seImm _ _ => (0xF000, 0x3000)
  | .sneImm _ _ => (0xF000, 0x4000)
  | .seReg _ _ => (0xF00F, 0x5000)
  | .ldImm _ _ => (0xF000, 0x6000)
  | .addImm _ _ => (0xF000, 0x7000)
  | .ldReg _ _ => (0xF00F, 0x8000)
  | .orReg _ _ => (0xF00F, 0x8001)
  | .andReg _ _ => (0xF00F, 0x8002)
  | .xorReg _ _ => (0xF00F, 0x8003)
  | .addReg _ _ => (0xF00F, 0x8004)
  | .sub _ _ => (0xF00F, 0x8005)
  | .shr _ _ => (0xF00F, 0x8006)
  | .subn _ _ => (0xF00F, 0x8007)
  | .shl _ _ => (0xF00F, 0x800E)
  | .sneReg _ _ => (0xF00F, 0x9000)
  | .ldI _ => (0xF000, 0xA000)
  | .jpV0 _ => (0xF000, 0xB000)
  | .rnd _ _ => (0xF000, 0xC000)
  | .drw _ _ _ => (0xF000, 0xD000)
  | .skp _ => (0xF0FF, 0xE09E)
  | .sknp _ => (0xF0FF, 0xE0A1)
  | .ldVxDt _ => (0xF0FF, 0xF007)
  | .ldVxK _ => (0xF0FF, 0xF00A)
  | .ldDtVx _ => (0xF0FF, 0xF015)
  | .ldStVx _ => (0xF0FF, 0xF018)
  | .addI _ => (0xF0FF, 0xF01E)
  | .ldF _ => (0xF0FF, 0xF029)
  | .ldB _ => (0xF0FF, 0xF033)
  | .ldMemVx _ => (0xF0FF, 0xF055)
  | .ldVxMem _ => (0xF0FF, 0xF065)
  | .unrec _ => (0x0000, 0x0000)

/-- The instruction's word selects its row. -/
def Statement (i : Instr) : Prop := encode i &&& (maskAndPattern i).1 = (maskAndPattern i).2

theorem cls : Statement .cls := rfl

theorem ret : Statement .ret := rfl

theorem jp (nnn : Addr12) : Statement (.jp nnn) := fmtNNN_row 0x1 nnn

theorem call (nnn : Addr12) : Statement (.call nnn) := fmtNNN_row 0x2 nnn

theorem seImm (x : RegIx) (nn : Byte) : Statement (.seImm x nn) := fmtXNN_row 0x3 x nn

theorem sneImm (x : RegIx) (nn : Byte) : Statement (.sneImm x nn) := fmtXNN_row 0x4 x nn

theorem seReg (x : RegIx) (y : RegIx) : Statement (.seReg x y) := fmtXY_row 0x5 x y 0x0

theorem ldImm (x : RegIx) (nn : Byte) : Statement (.ldImm x nn) := fmtXNN_row 0x6 x nn

theorem addImm (x : RegIx) (nn : Byte) : Statement (.addImm x nn) := fmtXNN_row 0x7 x nn

theorem ldReg (x : RegIx) (y : RegIx) : Statement (.ldReg x y) := fmtXY_row 0x8 x y 0x0

theorem orReg (x : RegIx) (y : RegIx) : Statement (.orReg x y) := fmtXY_row 0x8 x y 0x1

theorem andReg (x : RegIx) (y : RegIx) : Statement (.andReg x y) := fmtXY_row 0x8 x y 0x2

theorem xorReg (x : RegIx) (y : RegIx) : Statement (.xorReg x y) := fmtXY_row 0x8 x y 0x3

theorem addReg (x : RegIx) (y : RegIx) : Statement (.addReg x y) := fmtXY_row 0x8 x y 0x4

theorem sub (x : RegIx) (y : RegIx) : Statement (.sub x y) := fmtXY_row 0x8 x y 0x5

theorem shr (x : RegIx) (y : RegIx) : Statement (.shr x y) := fmtXY_row 0x8 x y 0x6

theorem subn (x : RegIx) (y : RegIx) : Statement (.subn x y) := fmtXY_row 0x8 x y 0x7

theorem shl (x : RegIx) (y : RegIx) : Statement (.shl x y) := fmtXY_row 0x8 x y 0xE

theorem sneReg (x : RegIx) (y : RegIx) : Statement (.sneReg x y) := fmtXY_row 0x9 x y 0x0

theorem ldI (nnn : Addr12) : Statement (.ldI nnn) := fmtNNN_row 0xA nnn

theorem jpV0 (nnn : Addr12) : Statement (.jpV0 nnn) := fmtNNN_row 0xB nnn

theorem rnd (x : RegIx) (nn : Byte) : Statement (.rnd x nn) := fmtXNN_row 0xC x nn

theorem drw (x : RegIx) (y : RegIx) (n : Height) : Statement (.drw x y n) := fmtXYN_row 0xD x y (nibble n)

theorem skp (x : RegIx) : Statement (.skp x) := fmtX_row 0xE x 0x9E

theorem sknp (x : RegIx) : Statement (.sknp x) := fmtX_row 0xE x 0xA1

theorem ldVxDt (x : RegIx) : Statement (.ldVxDt x) := fmtX_row 0xF x 0x07

theorem ldVxK (x : RegIx) : Statement (.ldVxK x) := fmtX_row 0xF x 0x0A

theorem ldDtVx (x : RegIx) : Statement (.ldDtVx x) := fmtX_row 0xF x 0x15

theorem ldStVx (x : RegIx) : Statement (.ldStVx x) := fmtX_row 0xF x 0x18

theorem addI (x : RegIx) : Statement (.addI x) := fmtX_row 0xF x 0x1E

theorem ldF (x : RegIx) : Statement (.ldF x) := fmtX_row 0xF x 0x29

theorem ldB (x : RegIx) : Statement (.ldB x) := fmtX_row 0xF x 0x33

theorem ldMemVx (x : RegIx) : Statement (.ldMemVx x) := fmtX_row 0xF x 0x55

theorem ldVxMem (x : RegIx) : Statement (.ldVxMem x) := fmtX_row 0xF x 0x65

theorem unrec (op : Word) : Statement (.unrec op) := by simp [Statement, maskAndPattern]

end Sys2Proof.Laws.EncodesRow
end

