-- ==== Sys2Proof/Tests/Slice0.lean ====
section
/-! SUPPORT. Tests. Expected results are the vectors T1 to T174 of spec/95_test_vectors.md and the examples in the rules; words
are written from the patterns of 30_encoding.md rule R76. The witnesses show states that meet the hypotheses of the statements. -/

namespace Sys2Proof.Tests

open Sys2Proof.Machine

/-! ### Helpers -/

/-- Reset with the word at 0x200 and changes (95_test_vectors.md, conventions). -/
def start (w : Nat) (change : State → State) : State := change (State.reset.withFetchWord 16 w)

/-- Set several V registers. -/
def withV (l : List (RegIx × Byte)) (s : State) : State := l.foldl (fun t p => t.writeV p.1 p.2) s

/-- Something of the next state; none when there is none. -/
def observe {α : Type} (f : State → α) (r : Result) : Option α :=
  match r with
  | .next s => some (f s)
  | .fault _ => none
  | .refused _ => none

/-- One step from such a state, observed. -/
def after {α : Type} (w : Nat) (change : State → State) (f : State → α) : Option α := observe f (step (start w change))

/-- `FAULT`, `RUN`, `pc`. -/
def stopOf (s : State) : FaultCode × RunState × Word := (s.fault, s.run, s.pc)

/-- A pixel on the display. -/
def lit (y x : Nat) (s : State) : State := s.setDisplay (xorPixel y x true s.display)

/-! ### Well-formedness: each check refuses an ill-formed term -/

theorem test_wf_refuses_cls_word : (Instr.unrec 0x00E0).wf = false := by decide
theorem test_wf_refuses_ret_word : (Instr.unrec 0x00EE).wf = false := by decide
theorem test_wf_refuses_family_1 : (Instr.unrec 0x1ABC).wf = false := by decide
theorem test_wf_refuses_family_5 : (Instr.unrec 0x5120).wf = false := by decide
theorem test_wf_refuses_family_8 : (Instr.unrec 0x812E).wf = false := by decide
theorem test_wf_refuses_family_9 : (Instr.unrec 0x9AB0).wf = false := by decide
theorem test_wf_refuses_family_E : (Instr.unrec 0xE19E).wf = false := by decide
theorem test_wf_refuses_family_F : (Instr.unrec 0xF265).wf = false := by decide
theorem test_wf_accepts_01E0 : (Instr.unrec 0x01E0).wf = true := by decide
theorem test_wf_accepts_F175 : (Instr.unrec 0xF175).wf = true := by decide

/-! ### Decoding: one word written out bit by bit for every constructor (30_encoding.md rules R72, R76) -/

theorem test_decode_cls : decodeWord 0b0000000011100000 = .cls := by decide
theorem test_decode_ret : decodeWord 0b0000000011101110 = .ret := by decide
theorem test_decode_jp : decodeWord 0b0001101010111100 = .jp 0xABC := by decide
theorem test_decode_call : decodeWord 0b0010001101000101 = .call 0x345 := by decide
theorem test_decode_seImm : decodeWord 0b0011101001000010 = .seImm 10 0x42 := by decide
theorem test_decode_sneImm : decodeWord 0b0100101001000010 = .sneImm 10 0x42 := by decide
theorem test_decode_seReg : decodeWord 0b0101101010110000 = .seReg 10 11 := by decide
theorem test_decode_ldImm : decodeWord 0b0110110011111111 = .ldImm 12 0xFF := by decide
theorem test_decode_addImm : decodeWord 0b0111000100000101 = .addImm 1 0x05 := by decide
theorem test_decode_ldReg : decodeWord 0b1000000100100000 = .ldReg 1 2 := by decide
theorem test_decode_orReg : decodeWord 0b1000000100100001 = .orReg 1 2 := by decide
theorem test_decode_andReg : decodeWord 0b1000000100100010 = .andReg 1 2 := by decide
theorem test_decode_xorReg : decodeWord 0b1000000100100011 = .xorReg 1 2 := by decide
theorem test_decode_addReg : decodeWord 0b1000000000010100 = .addReg 0 1 := by decide
theorem test_decode_sub : decodeWord 0b1000111100010101 = .sub 15 1 := by decide
theorem test_decode_shr : decodeWord 0b1000000111110110 = .shr 1 15 := by decide
theorem test_decode_subn : decodeWord 0b1000000000010111 = .subn 0 1 := by decide
theorem test_decode_shl : decodeWord 0b1000000100101110 = .shl 1 2 := by decide
theorem test_decode_sneReg : decodeWord 0b1001101010110000 = .sneReg 10 11 := by decide
theorem test_decode_ldI : decodeWord 0b1010001011110000 = .ldI 0x2F0 := by decide
theorem test_decode_jpV0 : decodeWord 0b1011001011110000 = .jpV0 0x2F0 := by decide
theorem test_decode_rnd : decodeWord 0b1100000100001111 = .rnd 1 0x0F := by decide
theorem test_decode_drw : decodeWord 0b1101000100100011 = .drw 1 2 3 := by decide
theorem test_decode_skp : decodeWord 0b1110000110011110 = .skp 1 := by decide
theorem test_decode_sknp : decodeWord 0b1110000110100001 = .sknp 1 := by decide
theorem test_decode_ldVxDt : decodeWord 0b1111001100000111 = .ldVxDt 3 := by decide
theorem test_decode_ldVxK : decodeWord 0b1111001100001010 = .ldVxK 3 := by decide
theorem test_decode_ldDtVx : decodeWord 0b1111000100010101 = .ldDtVx 1 := by decide
theorem test_decode_ldStVx : decodeWord 0b1111000100011000 = .ldStVx 1 := by decide
theorem test_decode_addI : decodeWord 0b1111001000011110 = .addI 2 := by decide
theorem test_decode_ldF : decodeWord 0b1111000000101001 = .ldF 0 := by decide
theorem test_decode_ldB : decodeWord 0b1111000000110011 = .ldB 0 := by decide
theorem test_decode_ldMemVx : decodeWord 0b1111001001010101 = .ldMemVx 2 := by decide
theorem test_decode_ldVxMem : decodeWord 0b1111001001100101 = .ldVxMem 2 := by decide
theorem test_decode_unrec : decodeWord 0b0101000100100001 = .unrec 0x5121 := by decide

theorem test_decode_8128_unrec : decodeWord 0x8128 = .unrec 0x8128 := by decide
theorem test_decode_truncated : decodeBytes [0x00] = .error .truncated := by decide
theorem test_decode_high_byte_first : decodeBytes [0x2A, 0xBC, 0x12] = .ok (.call 0xABC, [0x12]) := by decide
theorem test_decode_table_word : decodeTableWord 16 0xD123 = some (.drw 1 2 3) := by decide
theorem test_encode_drw : encode (.drw 1 2 3) = 0xD123 := by decide

/-! ### Fetch and control transfer (T1 to T32) -/

theorem test_unrec_noop_T1 :
    after 0x0000 (fun s => s) (fun s => s.pc) = some (0x202) := by decide

theorem test_unrec_not_clear_T2 :
    after 0x01E0 (lit 0 0) (fun s => (s.pc, pixel s.display 0 0)) = some (0x202, true) := by decide

theorem test_last_fetchable_T7 :
    after 0x6A55 (fun s => { s with pc := 0xFFE, mem := s.mem.writeBytes 0xFFE [0x6A, 0x55] }) (fun s => (s.readV 10, s.pc)) = some (0x55, 0x1000) := by decide

theorem test_fetch_fault_T8 :
    after 0x6A55 (fun s => { s with pc := 0xFFF }) (stopOf) = some (.memOutOfRange, .halted, 0xFFF) := by decide

theorem test_fetch_fault_T9 :
    after 0x6A55 (fun s => { s with pc := 0x1000 }) (stopOf) = some (.memOutOfRange, .halted, 0x1000) := by decide

theorem test_jp_T10 :
    after 0x1ABC (fun s => s) (fun s => s.pc) = some (0xABC) := by decide

theorem test_call_T14 :
    after 0x2345 (fun s => { s with sp := 11 }) (fun s => (s.stack[11], s.sp, s.pc)) = some (0x202, 12, 0x345) := by decide

theorem test_call_overflow_T15 :
    after 0x2345 (fun s => { s with sp := 12 }) (fun s => (stopOf s, s.sp)) = some ((.stackOverflow, .halted, 0x200), 12) := by decide

theorem test_ret_T16 :
    after 0x00EE (fun s => { s with sp := 2, stack := (s.stack.set 0 0x204).set 1 0xABC }) (fun s => (s.pc, s.sp)) = some (0xABC, 1) := by decide

theorem test_ret_underflow_T18 :
    after 0x00EE (fun s => s) (stopOf) = some (.stackUnderflow, .halted, 0x200) := by decide

theorem test_se_imm_T19 :
    after 0x3A42 (withV [(10, 0x42)]) (fun s => s.pc) = some (0x204) := by decide

theorem test_se_imm_T20 :
    after 0x3A42 (withV [(10, 0x43)]) (fun s => s.pc) = some (0x202) := by decide

theorem test_sne_imm_T21 :
    after 0x4A42 (withV [(10, 0x42)]) (fun s => s.pc) = some (0x202) := by decide

theorem test_sne_imm_T22 :
    after 0x4A42 (withV [(10, 0x43)]) (fun s => s.pc) = some (0x204) := by decide

theorem test_se_reg_T23 :
    after 0x5AB0 (withV [(10, 9), (11, 9)]) (fun s => s.pc) = some (0x204) := by decide

theorem test_se_reg_T24 :
    after 0x5AB0 (withV [(10, 9), (11, 8)]) (fun s => s.pc) = some (0x202) := by decide

theorem test_sne_reg_T26 :
    after 0x9AB0 (withV [(10, 9), (11, 8)]) (fun s => s.pc) = some (0x204) := by decide

theorem test_sne_reg_T27 :
    after 0x9AB0 (withV [(10, 9), (11, 9)]) (fun s => s.pc) = some (0x202) := by decide

theorem test_jp_v0_T31 :
    after 0xBFFF (withV [(0, 0xFF)]) (fun s => s.pc) = some (0x10FE) := by decide

theorem test_jp_v0_T32 :
    after 0xB2F0 (withV [(0, 0x10), (2, 0x77)]) (fun s => s.pc) = some (0x300) := by decide

/-! ### Arithmetic and logic (T40 to T85) -/

theorem test_ld_imm_T41 :
    after 0x6F07 (fun s => s) (fun s => (s.readV 15, s.pc)) = some (0x07, 0x202) := by decide

theorem test_add_imm_T42 :
    after 0x7105 (withV [(1, 0xFE), (15, 7)]) (fun s => (s.readV 1, s.readV 15)) = some (0x03, 7) := by decide

theorem test_add_imm_T44 :
    after 0x7F02 (withV [(15, 0xFF)]) (fun s => s.readV 15) = some (0x01) := by decide

theorem test_ld_reg_T45 :
    after 0x8120 (withV [(2, 0x7C)]) (fun s => s.readV 1) = some (0x7C) := by decide

theorem test_or_T46 :
    after 0x8121 (withV [(1, 0xF0), (2, 0x0F), (15, 1)]) (fun s => (s.readV 1, s.readV 15)) = some (0xFF, 1) := by decide

theorem test_or_reset_T48 :
    after 0x8F21 (fun s => withV [(2, 0x0F), (15, 0xF0)] { s with cfg := ⟨.vy, .reset⟩ }) (fun s => s.readV 15) = some (0x00) := by decide

theorem test_and_T50 :
    after 0x8122 (withV [(1, 0xF0), (2, 0x3C)]) (fun s => s.readV 1) = some (0x30) := by decide

theorem test_xor_T51 :
    after 0x8123 (withV [(1, 0xF0), (2, 0x3C)]) (fun s => s.readV 1) = some (0xCC) := by decide

theorem test_xor_same_T52 :
    after 0x8113 (withV [(1, 0xF0)]) (fun s => s.readV 1) = some (0x00) := by decide

theorem test_add_reg_T56 :
    after 0x8014 (withV [(0, 0xC8), (1, 0x64)]) (fun s => (s.readV 0, s.readV 15)) = some (0x2C, 0x01) := by decide

theorem test_add_reg_into_vf_T59 :
    after 0x8F14 (withV [(15, 3), (1, 2)]) (fun s => s.readV 15) = some (0x00) := by decide

theorem test_sub_T62 :
    after 0x8015 (withV [(0, 3), (1, 5)]) (fun s => (s.readV 0, s.readV 15)) = some (0xFE, 0) := by decide

theorem test_sub_from_vf_T66 :
    after 0x80F5 (withV [(0, 9), (15, 10)]) (fun s => (s.readV 0, s.readV 15)) = some (0xFF, 0) := by decide

theorem test_subn_T67 :
    after 0x8017 (withV [(0, 3), (1, 5)]) (fun s => (s.readV 0, s.readV 15)) = some (0x02, 0x01) := by decide

theorem test_subn_into_vf_T70 :
    after 0x8F17 (withV [(15, 9), (1, 4)]) (fun s => s.readV 15) = some (0x00) := by decide

theorem test_shr_T71 :
    after 0x8126 (withV [(1, 0xAA), (2, 7)]) (fun s => (s.readV 1, s.readV 2, s.readV 15)) = some (0x03, 7, 0x01) := by decide

theorem test_shr_source_vx_T72 :
    after 0x8126 (fun s => withV [(1, 0xAA), (2, 7), (15, 1)] { s with cfg := ⟨.vx, .unaffected⟩ }) (fun s => (s.readV 1, s.readV 15)) = some (0x55, 0x00) := by decide

theorem test_shl_T78 :
    after 0x812E (withV [(1, 1), (2, 0x81)]) (fun s => (s.readV 1, s.readV 15)) = some (0x02, 0x01) := by decide

theorem test_shl_source_vx_T79 :
    after 0x812E (fun s => withV [(1, 1), (2, 0x81), (15, 1)] { s with cfg := ⟨.vx, .unaffected⟩ }) (fun s => (s.readV 1, s.readV 15)) = some (0x02, 0x00) := by decide

theorem test_rnd_goes_on :
    after 0xC1FF (fun s => s) (fun s => (s.pc, s.draws, s.readV 15)) = some (0x202, 1, 0) := by decide

/-- T84: a mask of 0 gives 0 whatever the draw is. -/
theorem test_rnd_mask_zero_T84 : ∃ t, step (start 0xC100 (withV [(1, 0x55)])) = .next t ∧ t.readV 1 = 0 :=
  ⟨_, rfl, BitVec.and_zero⟩

/-! ### Index register and memory (T90 to T110) -/

theorem test_ld_i_T90 :
    after 0xAFFF (fun s => s) (fun s => (s.i, s.pc)) = some (0x0FFF, 0x202) := by decide

theorem test_add_i_T93 :
    after 0xF21E (fun s => withV [(2, 2)] (s.setI 0xFFFF)) (fun s => (s.i, s.readV 15)) = some (0x0001, 0) := by decide

theorem test_ld_f_T94 :
    after 0xF029 (withV [(0, 0x0A)]) (fun s => s.i) = some (0x0032) := by decide

theorem test_ld_f_T96 :
    after 0xF029 (withV [(0, 0xFF)]) (fun s => s.i) = some (0x04FB) := by decide

theorem test_ld_b_T98 :
    after 0xF033 (fun s => withV [(0, 255)] (s.setI 0x300)) (fun s => (s.mem.readBytes 0x300 3, s.i)) = some ([2, 5, 5], 0x300) := by decide

theorem test_ld_b_fault_T101 :
    after 0xF033 (fun s => withV [(0, 123)] (s.setI 0xFFE)) (fun s => (stopOf s, s.mem.readBytes 0xFFE 2)) = some ((.memOutOfRange, .halted, 0x200), [0, 0]) := by decide

theorem test_store_T102 :
    after 0xF255 (fun s => withV [(0, 0x11), (1, 0x22), (2, 0x33), (3, 0x44)] (s.setI 0x400)) (fun s => (s.mem.readBytes 0x400 4, s.i)) = some ([0x11, 0x22, 0x33, 0], 0x0403) := by decide

theorem test_store_fault_T105 :
    after 0xF155 (fun s => withV [(0, 1), (1, 2)] (s.setI 0xFFF)) (fun s => (stopOf s, s.readMem 0xFFF, s.i)) = some ((.memOutOfRange, .halted, 0x200), 0, 0xFFF) := by decide

theorem test_load_T106 :
    after 0xF265 (fun s => withV [(3, 0x99)] ((s.storeBytes 0x400 [0x11, 0x22, 0x33, 0x44]).setI 0x400)) (fun s => ([0, 1, 2, 3].map s.readV, s.i)) = some ([0x11, 0x22, 0x33, 0x99], 0x0403) := by decide

theorem test_load_fault_T108 :
    after 0xF065 (fun s => s.setI 0x1000) (stopOf) = some (.memOutOfRange, .halted, 0x200) := by decide

theorem test_memory_canonical : (Memory.write [(0x300, 7)] 0x300 0) = [] := by decide
theorem test_memory_sorted : (Memory.write [(0x300, 7)] 0x200 1) = [(0x200, 1), (0x300, 7)] := by decide
theorem test_font_glyph_zero : Memory.readBytes [] 0 5 = [0xF0, 0x90, 0x90, 0x90, 0xF0] := by decide
theorem test_font_size : defaultFont.length = 80 := by decide

/-! ### Display (T120 to T131) -/

theorem test_cls_T120 :
    after 0x00E0 (fun s => lit 31 63 (lit 0 0 s)) (fun s => (pixel s.display 0 0, pixel s.display 31 63, s.pc)) = some (false, false, 0x202) := by decide

theorem test_drw_collision_T122 :
    after 0xD121 (fun s => lit 2 4 (withV [(1, 4), (2, 2)] ((s.storeBytes 0x300 [0xC0]).setI 0x300))) (fun s => (pixel s.display 2 4, pixel s.display 2 5, s.readV 15)) = some (false, true, 1) := by decide

theorem test_drw_clipped_row_T129 :
    after 0xD012 (fun s => withV [(0, 0), (1, 31)] ((s.storeBytes 0xFFF [0x80]).setI 0xFFF)) (fun s => (pixel s.display 31 0, s.pc, s.fault)) = some (true, 0x202, .none) := by decide

/-! ### Keypad and timers (T140 to T154) -/

theorem test_skp_T140 :
    after 0xE19E (fun s => withV [(1, 7)] (s.setKeypad 0x0080)) (fun s => s.pc) = some (0x204) := by decide

theorem test_skp_fault_T142 :
    after 0xE19E (fun s => withV [(1, 16)] (s.setKeypad 0xFFFF)) (stopOf) = some (.keyIndexOutOfRange, .halted, 0x200) := by decide

theorem test_sknp_T143 :
    after 0xE1A1 (withV [(1, 7)]) (fun s => s.pc) = some (0x204) := by decide

theorem test_sknp_fault_T145 :
    after 0xE1A1 (withV [(1, 0xFF)]) (stopOf) = some (.keyIndexOutOfRange, .halted, 0x200) := by decide

theorem test_ld_vx_dt_T146 :
    after 0xF307 (fun s => s.setDt 0x2C) (fun s => (s.readV 3, s.pc)) = some (0x2C, 0x202) := by decide

theorem test_ld_dt_vx_T147 :
    after 0xF115 (withV [(1, 5)]) (fun s => (s.dt, s.st)) = some (5, 0) := by decide

theorem test_ld_st_vx_T148 :
    after 0xF118 (withV [(1, 3)]) (fun s => (s.st, s.dt, s.toneOn)) = some (3, 0, true) := by decide

theorem test_key_wait_arms_T149 :
    after 0xF30A (fun s => s.setKeypad 0x0020) (fun s => (s.wait, s.keyPrev, s.pc)) = some (true, 0x0020, 0x200) := by decide

theorem test_key_wait_captures_T153 :
    after 0xF30A (fun s => { s with wait := true, keyPrev := 0x0020, keypad := 0x8120 }) (fun s => (s.readV 3, s.wait, s.keyPrev, s.pc)) = some (0x08, false, 0x8120, 0x202) := by decide

/-! ### The other agents and the run state (T155 to T174) -/

theorem test_tick_T155 :
    observe (fun s => (s.dt, s.st)) (act .tick { State.reset with dt := 2, st := 1 }) = some (1, 0) := by decide
theorem test_tick_zero_T156 : observe (fun s => (s.dt, s.st)) (act .tick State.reset) = some (0, 0) := by decide
theorem test_tick_paused_T158 :
    observe (fun s => s.dt) (act .tick { State.reset with run := .paused, dt := 3 }) = some 2 := by decide
theorem test_tick_halted_T159 : observe (fun s => s.dt) (act .tick { State.reset with run := .halted, dt := 3 }) = none := by
  decide
theorem test_key_down_T160 : observe (fun s => s.keypad) (act (.input (.keyDown 7)) State.reset) = some 0x0080 := by decide
theorem test_key_up_T162 :
    observe (fun s => s.keypad) (act (.input (.keyUp 7)) (State.reset.setKeypad 0x0081)) = some 0x0001 := by decide
theorem test_pause_T170 : observe (fun s => s.run) (act (.input .pauseToggle) State.reset) = some .paused := by decide
theorem test_quit_T172 :
    observe (fun s => (s.run, s.fault)) (act (.input .quit) State.reset) = some (.halted, .none) := by decide
theorem test_step_paused_T173 : observe (fun s => s.pc) (act .step (State.reset.setRun .paused)) = none := by decide
theorem test_scheduled_tick :
    observe (fun s => (s.dt, s.agenda)) (step { State.reset with dt := 5, agenda := [.tick, .step] }) = some (4, [.step]) := by
  decide
/-- Rule R202: under the schedule a frame takes its inputs, its burst, the observation and the tick, and the next frame follows. -/
theorem test_frame_order :
    frameAgenda ⟨2, by decide⟩ [.keyDown 7] = [.input (.keyDown 7), .step, .step, .observe, .tick] := by decide
theorem test_frames_tick_again :
    observe (fun s => (s.dt, s.pc, s.keypad)) (Sys2Proof.core.run 7 { State.reset with dt := 5, schedule := some ⟨⟨1, by decide⟩, [[], [.keyDown 7]]⟩ }) =
      some (3, 0x204, 0x0080) := by decide
theorem test_frame_paused_has_no_step :
    observe (fun s => (s.dt, s.pc)) (Sys2Proof.core.run 3 { State.reset with dt := 5, schedule := some ⟨⟨2, by decide⟩, [[.pauseToggle]]⟩ }) =
      some (4, 0x200) := by decide
theorem test_unrec_event : emitted .step (start 0x5121 fun s => s) = [.unrec 0x5121 0x200] := by decide
theorem test_display_observed : emitted .observe State.reset = [.displayFrame blankDisplay] := by decide
theorem test_tone_report : emitted .tick { State.reset with st := 1 } = [.toneReport false] := by decide
theorem test_loader_places_rom :
    (loader Config.default defaultFont [0x60, 0x05]).map (fun s => (s.fetchWord, s.readMem 0x4F)) = some (0x6005, 0x80) := by
  decide

/-! ### Witnesses: states and operands that meet the hypotheses of the statements -/

/-- A state that meets the invariant and is not the reset state: 00E0 at 0x300, one stacked address. -/
def lively : State :=
  { State.reset with mem := [(0x301, 0xE0)], pc := 0x300, sp := 1, stack := State.reset.stack.set 0 0x10FE, dt := 3 }

theorem lively_meets_invariant (l : List Action) : State.Inv { lively with agenda := l } :=
  ⟨rfl, show (0x300#16).toNat ≤ 0x10FE by decide,
    show ∀ j : Fin 12, j.val < lively.sp.val → lively.stack[j].toNat ≤ 0x10FE by decide,
    fun h => absurd rfl h, fun h => absurd (show lively.wait = true from h) (by decide)⟩

/-- A faulted state that meets the invariant. -/
theorem faulted_meets_invariant :
    State.Inv { lively with run := .halted, fault := .stackUnderflow, agenda := [.input .quit] } :=
  ⟨rfl, show (0x300#16).toNat ≤ 0x10FE by decide,
    show ∀ j : Fin 12, j.val < lively.sp.val → lively.stack[j].toNat ≤ 0x10FE by decide,
    fun _ => rfl, fun h => absurd h (by decide)⟩

theorem witness_SelectedBy : (0x8014 : Word) &&& 0xF00F = 0x8004 ∧ (0x00EE : Word) &&& 0xFFFF = 0x00EE ∧
    (0xDABC : Word) &&& 0xF000 = 0xD000 ∧ (0xFA65 : Word) &&& 0xF0FF = 0xF065 := by decide

theorem witness_DecodeOfEncode : (Instr.drw 15 0 15).wf = true ∧ (Instr.unrec 0xFFFF).wf = true := by decide

theorem witness_OpcodeRowsExcludeEachOther : (opcodeTable[13]'(by decide)).selects 0x8014 = true := by decide

theorem witness_StepRunsDecodedInstruction :
    let s : State := { State.reset with pc := 4094, mem := [(4094, 0x80), (4095, 0x14)] }
    s.run = .running ∧ s.pc.toNat ≤ 4094 ∧
      decodeBytes [s.readMem s.pc.toNat, s.readMem (s.pc.toNat + 1)] = .ok (.addReg 0 1, []) ∧ s.schedule = none ∧ s.agenda = [] ∧
      ({ s with agenda := [.step, .tick] } : State).agenda = Action.step :: [.tick] ∧
      ({ s with agenda := [.input .quit] } : State).agenda = Action.input .quit :: [] := by decide

theorem witness_FetchBeyondMemoryFaults :
    let s : State := { State.reset with pc := 4095 }
    s.run = .running ∧ 4094 < s.pc.toNat ∧ s.schedule = none ∧ s.agenda = [] ∧
      ({ s with agenda := [.step] } : State).agenda = Action.step :: [] := by decide

theorem witness_EnabledActionsComplete :
    enabled State.reset.run .step = true ∧ enabled (State.reset.setRun .paused).run .step = false ∧
      enabled (State.reset.setRun .halted).run (.input (.keyUp 3)) = false := by decide

theorem witness_HaltedNeverChanges :
    (State.reset.setRun .halted).run = .halted ∧ (State.reset.setRun .paused).run = .paused ∧
      (State.reset.setRun .paused).nextAction = .step := by decide

theorem witness_FaultEntryIsPrecise :
    faultCause (.call 0) { State.reset with sp := 12 } ≠ .none ∧ faultCause .ret State.reset ≠ .none ∧
      faultCause (.ldB 0) (State.reset.setI 4094) ≠ .none ∧ faultCause (.ldMemVx 1) (State.reset.setI 4095) ≠ .none ∧
      faultCause (.ldVxMem 0) (State.reset.setI 4096) ≠ .none ∧ faultCause (.drw 0 0 2) (State.reset.setI 4095) ≠ .none ∧
      faultCause (.skp 0) (withV [(0, 16)] State.reset) ≠ .none ∧ faultCause (.sknp 0) (withV [(0, 255)] State.reset) ≠ .none := by
  decide

theorem witness_EveryInstructionCompletesInFrame :
    faultCause (.call 0) { State.reset with sp := 11 } = .none ∧ faultCause .ret { State.reset with sp := 1 } = .none ∧
      faultCause (.ldB 0) (State.reset.setI 4093) = .none ∧ faultCause (.ldMemVx 1) (State.reset.setI 4094) = .none ∧
      faultCause (.ldVxMem 0) (State.reset.setI 4095) = .none ∧ faultCause (.drw 0 0 1) (State.reset.setI 4095) = .none ∧
      faultCause (.drw 0 0 0) (State.reset.setI 4096) = .none ∧ faultCause (.skp 0) (withV [(0, 15)] State.reset) = .none ∧
      faultCause (.ldVxK 0) State.reset = .none := by
  decide

theorem witness_VfWrittenOnlyWhereNamed :
    (∃ t, exec (.ldImm 14 9) State.reset = .next t) ∧ mayWriteVf State.reset.cfg (.ldImm 14 9) = false :=
  ⟨⟨_, rfl⟩, rfl⟩

theorem witness_RetPopsReturnAddress :
    State.reset.sp.val = 0 ∧ ({ State.reset with sp := 1 } : State).sp.val = (0 : Fin 12).val + 1 ∧
      ({ State.reset with sp := 12 } : State).sp.val = (11 : Fin 12).val + 1 := by decide

theorem witness_JumpSetsPc : State.reset.pc.toNat = (0x200 : Addr12).toNat := by decide

theorem witness_CallPushesAdvancedPc :
    ({ State.reset with sp := 12 } : State).sp.val = 12 ∧ ({ State.reset with sp := 11 } : State).sp.val = (11 : Fin 12).val ∧
      State.reset.sp.val = (0 : Fin 12).val := by decide

theorem witness_NestedCallsReturnInOrder :
    ({ State.reset with sp := 10 } : State).sp.val + [(0x300 : Addr12), 0x400].length ≤ 12 ∧ 0 < 2 ∧
      2 ≤ [(0x300 : Addr12), 0x400].length := by decide

theorem witness_UnrecognizedIsNoOp :
    (∀ r ∈ opcodeTable, r.selects 0x5121 = false) ∧ (start 0x5121 fun s => s).run = .running ∧
      (start 0x5121 fun s => s).pc.toNat ≤ 4094 ∧
      decodeWord (start 0x5121 fun s => s).fetchWord = .unrec 0x5121 := by decide

theorem witness_LogicOperations :
    (Instr.andReg 1 2 = .andReg 1 2 ∧ State.reset.readV 1 &&& State.reset.readV 2 = 0) ∧
      State.reset.cfg.logicVf = .unaffected ∧ ({ State.reset with cfg := ⟨.vy, .reset⟩ } : State).cfg.logicVf = .reset := by decide

theorem witness_ShiftsReportBitOut :
    (State.reset.cfg.shiftSrc = .vy ∧ (0 : Byte) = State.reset.readV 2) ∧
      (({ State.reset with cfg := ⟨.vx, .reset⟩ } : State).cfg.shiftSrc = .vx ∧ (0 : Byte) = State.reset.readV 1) := by decide

theorem witness_StoreDecimalDigits :
    State.reset.mem.wf = true ∧ 4095 < (State.reset.setI 4094).i.toNat + 2 ∧ (State.reset.setI 4093).i.toNat + 2 ≤ 4095 := by
  decide

theorem witness_StoreRegisterBlock :
    State.reset.mem.wf = true ∧ 4095 < (State.reset.setI 4094).i.toNat + (2 : RegIx).val ∧
      (State.reset.setI 4094).i.toNat + (1 : RegIx).val ≤ 4095 := by decide

theorem witness_LoadRegisterBlock :
    4095 < (State.reset.setI 4096).i.toNat + (0 : RegIx).val ∧ (State.reset.setI 4080).i.toNat + (15 : RegIx).val ≤ 4095 := by
  decide

theorem witness_StoreThenLoadRestoresRegisters :
    lively.mem.wf = true ∧ lively.i.toNat + (15 : RegIx).val ≤ 4095 ∧
      ∃ t, exec (.ldMemVx 15) lively = .next t ∧
        (∀ a, ({ t with i := lively.i } : State).readMem a = t.readMem a) ∧ ({ t with i := lively.i } : State).i = lively.i :=
  ⟨rfl, by decide, _, rfl, fun _ => rfl, rfl⟩

/-- A stored pair fetched whole; a stored byte that is only the low one, or only the high one, of the next opcode. -/
theorem witness_StoreIsSeenByNextFetch :
    (let s := withV [(0, 0x12), (1, 0x00)] (State.reset.setI 0x202)
     s.mem.wf = true ∧ s.i.toNat + (1 : RegIx).val ≤ 4095 ∧
      observe (fun t => (t.pc.toNat, t.fetchWord)) (exec (.ldMemVx 1) s) = some (s.i.toNat + (0 : RegIx).val, 0x1200)) ∧
    (let s := withV [(0, 0x12)] (State.reset.setI 0x203)
     s.mem.wf = true ∧ s.i.toNat + (0 : RegIx).val ≤ 4095 ∧
      observe (fun t => (t.pc.toNat + 1, t.fetchWord)) (exec (.ldMemVx 0) s) = some (s.i.toNat + (0 : RegIx).val, 0x0012)) ∧
    (let s := withV [(0, 207)] (State.reset.setI 0x200)
     s.mem.wf = true ∧ s.i.toNat + 2 ≤ 4095 ∧
      observe (fun t => (t.pc.toNat, t.fetchWord)) (exec (.ldB 0) s) = some (s.i.toNat + 2, 0x0700)) := by decide

theorem witness_DrawXorsSpriteAndReportsCollision :
    1 = min (2 : Height).val (32 - ((withV [(1, 31)] State.reset).readV 1).toNat % 32) ∧
      (0 < 2 ∧ 4095 < (State.reset.setI 4095).i.toNat + 2 - 1) ∧ (State.reset.setI 4095).i.toNat + 1 - 1 ≤ 4095 ∧
      0 = min (0 : Height).val (32 - (State.reset.readV 1).toNat % 32) := by decide

theorem witness_DrawTwiceRestoresDisplay :
    faultCause (.drw 0 1 5) lively = .none ∧
      ∃ t, exec (.drw 0 1 5) lively = .next t ∧ t.i = lively.i ∧ (∀ a, t.readMem a = lively.readMem a) ∧
        (t.readV 0).toNat % 64 = (lively.readV 0).toNat % 64 ∧ (t.readV 1).toNat % 32 = (lively.readV 1).toNat % 32 :=
  ⟨by decide, _, rfl, rfl, fun _ => rfl, rfl, rfl⟩

theorem witness_DrawStaysInRectangle :
    faultCause (.drw 0 1 5) lively = .none ∧ (∃ t, exec (.drw 0 1 5) lively = .next t) ∧
      (∀ r c, pixel ({ lively with display := blankDisplay } : State).display r c = false) :=
  ⟨by decide, ⟨_, rfl⟩, pixel_blankDisplay⟩

theorem witness_KeySkips :
    15 < ((withV [(1, 16)] State.reset).readV 1).toNat ∧ ((withV [(1, 15)] State.reset).readV 1).toNat ≤ 15 := by decide

theorem witness_KeyWait :
    State.reset.wait = false ∧
      (∀ k : KeyIx, ¬ (({ State.reset with keypad := 0x20, keyPrev := 0x20 } : State).keypad.getLsbD k.val = true ∧
        ({ State.reset with keypad := 0x20, keyPrev := 0x20 } : State).keyPrev.getLsbD k.val = false)) ∧
      (let s : State := { State.reset with wait := true, keypad := 0x8120, keyPrev := 0x20 }
       s.wait = true ∧ s.keypad.getLsbD 8 = true ∧ s.keyPrev.getLsbD 8 = false ∧
        ∀ j : KeyIx, j < 8 → ¬ (s.keypad.getLsbD j.val = true ∧ s.keyPrev.getLsbD j.val = false)) := by decide

theorem witness_TickCountsDown : State.reset.run ≠ .halted ∧ (State.reset.setRun .halted).run = .halted := by decide

theorem witness_KeyEventsChangeOneKey : (State.reset.setRun .paused).run ≠ .halted := by decide

/-- A frame at whose start a key goes down, in a state with a schedule. -/
def framed (inputs : List Input) (pc : Word) : State :=
  { State.reset with pc := pc, dt := 2, schedule := some ⟨⟨2, by decide⟩, [inputs]⟩ }

theorem witness_ScheduledFramesRunInOrder :
    (framed [.keyDown 3] 0x200).agenda = [] ∧ (framed [.keyDown 3] 0x200).run ≠ .halted ∧
      (∃ s1, actAll [.input (.keyDown 3)] (framed [.keyDown 3] 0x200) = .next s1 ∧ s1.run = .running ∧
        ∃ t, actAll (List.replicate 2 .step ++ [.observe, .tick]) s1 = .next t) ∧
      (∃ s1, actAll [.input .pauseToggle] (framed [.pauseToggle] 0x200) = .next s1 ∧ s1.run = .paused) ∧
      (∃ s1, actAll [.input .quit] (framed [.quit] 0x200) = .next s1 ∧ s1.run = .halted) ∧
      (∃ t, actAll (List.replicate 2 .step) (framed [] 0xFFE) = .next t ∧ t.run = .halted ∧ t.fault = .memOutOfRange) :=
  ⟨rfl, by decide, ⟨_, rfl, rfl, _, rfl⟩, ⟨_, rfl, rfl⟩, ⟨_, rfl, rfl⟩, ⟨_, rfl, rfl, rfl⟩⟩

theorem witness_ScheduleEndsWhenHalted :
    ((framed [] 0x200).setRun .halted).schedule = some ⟨⟨2, by decide⟩, [[]]⟩ ∧ ((framed [] 0x200).setRun .halted).run = .halted := by decide

theorem witness_LoaderGivesResetState :
    defaultFont.length = 80 ∧ 3584 < (List.replicate 3585 (0 : Byte)).length ∧ (List.replicate 3584 (0 : Byte)).length ≤ 3584 := by
  exact ⟨by decide, by rw [List.length_replicate]; decide, by rw [List.length_replicate]⟩

theorem witness_StepKeepsInvariant : lively.Inv ∧ ∃ t, step lively = .next t :=
  ⟨lively_meets_invariant [], _, rfl⟩

theorem witness_FaultStickyConfigFixed :
    ∃ s : State, s.Inv ∧ (∃ t, step s = .next t) ∧ s.fault ≠ .none :=
  ⟨_, faulted_meets_invariant, ⟨_, rfl⟩, by decide⟩

theorem witness_RunEndsOnlyByQuitOrFault :
    (∃ s t : State, s.Inv ∧ s.run ≠ .halted ∧ step s = .next t ∧ t.run = .halted ∧ s.nextAction = .input .quit) ∧
      (∃ s t : State, s.Inv ∧ s.run ≠ .halted ∧ step s = .next t ∧ t.run = .halted ∧ s.nextAction = .step) := by
  refine ⟨⟨_, _, lively_meets_invariant [.input .quit], by decide, rfl, rfl, rfl⟩,
    ⟨{ lively with pc := 0x1000 }, _, ⟨rfl, ?_, (lively_meets_invariant []).stackBound, fun h => absurd rfl h,
      fun h => absurd h (by decide)⟩, by decide, rfl, rfl, rfl⟩⟩
  show (0x1000#16).toNat ≤ 0x10FE
  decide

theorem witness_MemoryWrittenOnlyByStores :
    let s := start 0xF033 fun s => withV [(0, 7)] (s.setI 0x300)
    observe (fun t => decide (t.readMem 0x302 ≠ s.readMem 0x302)) (step s) = some true := by decide

end Sys2Proof.Tests
end

section
/-! PROOFS. Stores and fetches (20_memory.md sections 2, 3 and 7): what FX33 and FX55 answer when they fit into memory, what
each byte reads as afterwards, and that the next fetch sees it. -/

namespace Sys2Proof.Machine

/-! ### The two bytes of a fetch (rule R52) -/

theorem State.fetchWord_div (s : State) : s.fetchWord.toNat / 256 = (s.readMem s.pc.toNat).toNat := by
  have hlow := (s.readMem (s.pc.toNat + 1)).isLt
  rw [State.fetchWord, wordOfBytes_toNat]
  omega

theorem State.fetchWord_mod (s : State) : s.fetchWord.toNat % 256 = (s.readMem (s.pc.toNat + 1)).toNat := by
  have hlow := (s.readMem (s.pc.toNat + 1)).isLt
  rw [State.fetchWord, wordOfBytes_toNat]
  omega

/-- A byte of memory is the high byte of the opcode that begins at it, and the low byte of the one that begins before it. -/
theorem State.fetchWord_sees_byte {s : State} {a n : Nat} (h : (s.readMem a).toNat = n) :
    (s.pc.toNat = a → s.fetchWord.toNat / 256 = n) ∧ (s.pc.toNat + 1 = a → s.fetchWord.toNat % 256 = n) := by
  rw [State.fetchWord_div, State.fetchWord_mod]
  constructor <;> rintro rfl <;> exact h

/-! ### Reading after a store (rule R53) -/

theorem State.readMem_storeBytes_same {s : State} (hwf : s.mem.wf = true) {bs : List Byte} {a j : Nat}
    (hfit : a + bs.length ≤ 4096) (hj : j < bs.length) : (s.storeBytes a bs).readMem (a + j) = bs[j] :=
  Memory.read_writeBytes_same hwf bs hfit hj

theorem State.readMem_storeBytes_other (s : State) {bs : List Byte} {a c : Nat} (hc : c < a ∨ a + bs.length ≤ c) :
    (s.storeBytes a bs).readMem c = s.readMem c :=
  Memory.read_writeBytes_other s.mem bs hc

/-! ### FX55 (rule R144) -/

/-- The next state of an FX55 that fits into memory. -/
def State.storedRegs (x : RegIx) (s : State) : State :=
  (s.advance.storeBytes s.i.toNat (s.regsThrough x)).setI (indexAfterBlock s.i x)

theorem exec_ldMemVx_of_fits {s : State} {x : RegIx} (hfit : s.i.toNat + x.val ≤ 4095) :
    exec (.ldMemVx x) s = .next (s.storedRegs x) :=
  if_pos (accessOk_iff.2 (.inr (by omega)))

theorem State.readMem_storedRegs_same {s : State} {x j : RegIx} (hwf : s.mem.wf = true)
    (hfit : s.i.toNat + x.val ≤ 4095) (hj : j.val ≤ x.val) :
    (s.storedRegs x).readMem (s.i.toNat + j.val) = s.readV j := by
  have hlen : s.i.toNat + (s.regsThrough x).length ≤ 4096 := by rw [State.regsThrough_length]; omega
  have hlt : j.val < (s.regsThrough x).length := by rw [State.regsThrough_length]; omega
  calc (s.storedRegs x).readMem (s.i.toNat + j.val)
      = (s.regsThrough x)[j.val] := State.readMem_storeBytes_same (s := s.advance) hwf hlen hlt
    _ = s.readV j := State.regsThrough_getElem s x j hj

theorem State.readMem_storedRegs_other {s : State} {x : RegIx} {c : Nat}
    (hc : c < s.i.toNat ∨ s.i.toNat + x.val < c) : (s.storedRegs x).readMem c = s.readMem c :=
  State.readMem_storeBytes_other s.advance (by rw [State.regsThrough_length]; omega)

/-! ### FX33 (rule R143) -/

/-- The next state of an FX33 that fits into memory. -/
def State.storedDigits (x : RegIx) (s : State) : State :=
  s.advance.storeBytes s.i.toNat (decimalDigits (s.readV x))

theorem exec_ldB_of_fits {s : State} {x : RegIx} (hfit : s.i.toNat + 2 ≤ 4095) :
    exec (.ldB x) s = .next (s.storedDigits x) :=
  if_pos (accessOk_iff.2 (.inr (by omega)))

/-- Each digit is below 256, so its byte holds it whole. -/
theorem decimalDigits_toNat (b : Byte) :
    (decimalDigits b)[0].toNat = b.toNat / 100 ∧ (decimalDigits b)[1].toNat = b.toNat / 10 % 10 ∧
      (decimalDigits b)[2].toNat = b.toNat % 10 := by
  have hb := b.isLt
  simp only [decimalDigits, List.getElem_cons_zero, List.getElem_cons_succ, BitVec.toNat_ofNat]
  omega

theorem State.readMem_storedDigits_same {s : State} {x : RegIx} {k : Nat} (hwf : s.mem.wf = true)
    (hfit : s.i.toNat + 2 ≤ 4095) (hk : k < (decimalDigits (s.readV x)).length) :
    (s.storedDigits x).readMem (s.i.toNat + k) = (decimalDigits (s.readV x))[k] :=
  State.readMem_storeBytes_same (s := s.advance) hwf (by rw [decimalDigits_length]; omega) hk

theorem State.readMem_storedDigits_other {s : State} {x : RegIx} {c : Nat}
    (hc : c < s.i.toNat ∨ s.i.toNat + 2 < c) : (s.storedDigits x).readMem c = s.readMem c :=
  State.readMem_storeBytes_other s.advance (by rw [decimalDigits_length]; omega)

/-! ### The next fetch -/

/-- Settles O36: a fetch reads memory byte by byte, so each of its two bytes is the one the store left at that address. -/
theorem storeIsSeenByNextFetch : Obligations.StoreIsSeenByNextFetch := by
  refine ⟨fun s x hwf hfit => ⟨s.storedRegs x, exec_ldMemVx_of_fits hfit, fun j hj => ?_, fun hpc => ?_, fun hpc => ?_⟩,
    fun s x hwf hfit => ⟨s.storedDigits x, exec_ldB_of_fits hfit, fun k digit hdigit => ?_, fun hpc => ?_, fun hpc => ?_⟩⟩
  · exact State.fetchWord_sees_byte (congrArg BitVec.toNat (State.readMem_storedRegs_same hwf hfit hj))
  · rw [State.fetchWord_div, State.readMem_storedRegs_other hpc]
  · rw [State.fetchWord_mod, State.readMem_storedRegs_other hpc]
  · obtain ⟨hhundreds, htens, hones⟩ := decimalDigits_toNat (s.readV x)
    apply State.fetchWord_sees_byte
    rcases hdigit with ⟨rfl, rfl⟩ | ⟨rfl, rfl⟩ | ⟨rfl, rfl⟩
    · rw [State.readMem_storedDigits_same hwf hfit (by simp), hhundreds]
    · rw [State.readMem_storedDigits_same hwf hfit (by simp), htens]
    · rw [State.readMem_storedDigits_same hwf hfit (by simp), hones]
  · rw [State.fetchWord_div, State.readMem_storedDigits_other hpc]
  · rw [State.fetchWord_mod, State.readMem_storedDigits_other hpc]

end Sys2Proof.Machine
end

section
/-! PROOFS. The encoding (30_encoding.md): the fields of an opcode, the opcode map as arithmetic on the family and the low
digits of a word, and the words it leaves to the no-op. -/

namespace Sys2Proof

/-! ### Fields (rule R71) -/

theorem nnField_eq_digits (w : Word) : (nnField w).toNat = (yField w).val * 16 + (nField w).val := by
  rw [nnField_toNat, yField_val, nField_val]; omega

theorem nnnField_eq_digits (w : Word) : (nnnField w).toNat = (xField w).val * 256 + (nnField w).toNat := by
  rw [nnnField_toNat, xField_val, nnField_toNat]; omega

theorem opField_wordOfBytes (b0 b1 : Byte) : (opField (wordOfBytes b0 b1)).toNat = b0.toNat / 16 := by
  have hlow := b1.isLt
  rw [opField_toNat, wordOfBytes_toNat]; omega

theorem xField_wordOfBytes (b0 b1 : Byte) : (xField (wordOfBytes b0 b1)).val = b0.toNat % 16 := by
  have hlow := b1.isLt
  rw [xField_val, wordOfBytes_toNat]; omega

theorem yField_wordOfBytes (b0 b1 : Byte) : (yField (wordOfBytes b0 b1)).val = b1.toNat / 16 := by
  have hlow := b1.isLt
  rw [yField_val, wordOfBytes_toNat]; omega

theorem nField_wordOfBytes (b0 b1 : Byte) : (nField (wordOfBytes b0 b1)).val = b1.toNat % 16 := by
  rw [nField_val, wordOfBytes_toNat]; omega

theorem nnField_wordOfBytes (b0 b1 : Byte) : nnField (wordOfBytes b0 b1) = b1 := by
  have hlow := b1.isLt
  apply BitVec.eq_of_toNat_eq
  rw [nnField_toNat, wordOfBytes_toNat]; omega

/-- Settles O2: each field is a quotient and remainder of the word, and a word is 256 times its first byte plus its second. -/
theorem fieldsOfOpcode : Obligations.FieldsOfOpcode :=
  ⟨fun w => ⟨opField_toNat w, xField_val w, yField_val w, nField_val w, nnField_toNat w, nnnField_toNat w,
      nnField_eq_digits w, nnnField_eq_digits w⟩,
    fun b0 b1 => ⟨opField_wordOfBytes b0 b1, xField_wordOfBytes b0 b1, yField_wordOfBytes b0 b1,
      nField_wordOfBytes b0 b1, nnField_wordOfBytes b0 b1⟩⟩

/-- Settles O1: eight closed words, each decoded by running the decoder. -/
theorem sampleWordsDecode : Obligations.SampleWordsDecode := by
  unfold Obligations.SampleWordsDecode
  decide

/-! ### The rows exclude each other (rule R77) -/

theorem not_selects_of_lt {w : Word} {j k : Fin opcodeTable.length} (hjk : j < k)
    (hj : opcodeTable[j].selects w = true) : opcodeTable[k].selects w = false :=
  not_selects_of_rowsExclude (List.pairwise_iff_getElem.1 opcodeTable_excludes j k j.isLt k.isLt hjk) hj

/-- Settles O5: of two different rows selected together, the earlier one would exclude the later one. -/
theorem opcodeRowsExcludeEachOther : Obligations.OpcodeRowsExcludeEachOther := by
  refine ⟨rfl, fun w j k hj hk => ?_⟩
  rcases lt_trichotomy j k with hlt | heq | hgt
  · exact absurd hk (Bool.eq_false_iff.1 (not_selects_of_lt hlt hj))
  · exact heq
  · exact absurd hj (Bool.eq_false_iff.1 (not_selects_of_lt hgt hk))

/-! ### Selection as arithmetic (rule R76): a row fixes the family, the top digit, and some of the digits below it -/

/-- A mask that takes the whole top digit splits the selection test into the family and the digits below. -/
theorem selects_iff_family (m p w : Word) (b : Word → Instr) (hm : m.toNat < 4096) :
    (OpcodeRow.mk (0xF000#16 ||| m) p b).selects w = true ↔
      w.toNat / 4096 = p.toNat / 4096 ∧ (w &&& m).toNat = p.toNat % 4096 := by
  have hlow : (w &&& m).toNat < 4096 := by
    rw [BitVec.toNat_and]; exact Nat.and_le_right.trans_lt hm
  simp only [OpcodeRow.selects, beq_iff_eq, ← BitVec.toNat_inj, and_F000_or w m hm]
  omega

theorem selects_F000 (p w : Word) (b : Word → Instr) : (OpcodeRow.mk 0xF000 p b).selects w = true ↔
    w.toNat / 4096 = p.toNat / 4096 ∧ 0 = p.toNat % 4096 := by
  simpa using selects_iff_family 0x0000 p w b (by decide)

theorem selects_F00F (p w : Word) (b : Word → Instr) : (OpcodeRow.mk 0xF00F p b).selects w = true ↔
    w.toNat / 4096 = p.toNat / 4096 ∧ w.toNat % 16 = p.toNat % 4096 := by
  rw [← and_000F_toNat]; exact selects_iff_family 0x000F p w b (by decide)

theorem selects_F0FF (p w : Word) (b : Word → Instr) : (OpcodeRow.mk 0xF0FF p b).selects w = true ↔
    w.toNat / 4096 = p.toNat / 4096 ∧ w.toNat % 256 = p.toNat % 4096 := by
  rw [← and_00FF_toNat]; exact selects_iff_family 0x00FF p w b (by decide)

/-- The family is named here too, so that in a known family every row of another one drops out. -/
theorem selects_FFFF (p w : Word) (b : Word → Instr) : (OpcodeRow.mk 0xFFFF p b).selects w = true ↔
    w.toNat / 4096 = p.toNat / 4096 ∧ w.toNat = p.toNat := by
  simp only [OpcodeRow.selects, beq_iff_eq, BitVec.ofNat_eq_ofNat, and_FFFF, ← BitVec.toNat_inj]; omega

/-! ### The words left over (rules R78, R79) -/

theorem build_ne_unrec {r : OpcodeRow} (hr : r ∈ opcodeTable) (w op : Word) : r.build w ≠ .unrec op := by
  revert r
  simp [opcodeTable, rowsZeroToSeven, rowsEight, rowsNineToD, rowsEAndF]

theorem decodeWord_eq_unrec_iff (w op : Word) :
    decodeWord w = .unrec op ↔ op = w ∧ ∀ r ∈ opcodeTable, r.selects w = false := by
  rcases decodeWord_cases w with ⟨r, hr, hsel, hdec⟩ | ⟨hnone, hdec⟩
  · rw [hdec]
    exact iff_of_false (build_ne_unrec hr w op) fun ⟨_, hnone⟩ => by simp [hnone r hr] at hsel
  · rw [hdec, Instr.unrec.injEq, eq_comm]
    exact (and_iff_left hnone).symm

/-- The list of rule R79 and the masks of rule R76 agree, family by family. -/
theorem unrecognizedWord_iff_noRow (w : Word) :
    unrecognizedWord w = true ↔ ∀ r ∈ opcodeTable, r.selects w = false := by
  have hfamily : w.toNat / 4096 < 16 := by omega
  simp only [opcodeTable, rowsZeroToSeven, rowsEight, rowsNineToD, rowsEAndF, List.forall_mem_append,
    List.forall_mem_cons, ← Bool.not_eq_true, selects_F000, selects_F00F, selects_F0FF, selects_FFFF]
  unfold unrecognizedWord
  generalize w.toNat / 4096 = f at hfamily ⊢
  split
  case h_1 | h_2 | h_4 | h_5 | h_6 => simp  -- families 0, 5, 9, E, F: the list and the rows name the same digits
  case h_3 =>  -- family 8: the list names the low digits that no row has
    have hdigit : w.toNat % 16 < 16 := Nat.mod_lt _ (by decide)
    generalize w.toNat % 16 = n at hdigit ⊢
    interval_cases n <;> simp
  case h_7 h0 h5 h8 h9 hE hF =>  -- each other family has one row, which takes all its words
    simp only [imp_false] at h0 h5 h8 h9 hE hF
    have hother : f = 1 ∨ f = 2 ∨ f = 3 ∨ f = 4 ∨ f = 6 ∨ f = 7 ∨ f = 10 ∨ f = 11 ∨ f = 12 ∨ f = 13 := by omega
    rcases hother with rfl | rfl | rfl | rfl | rfl | rfl | rfl | rfl | rfl | rfl <;> simp

/-- Settles O6: a word decodes to the no-op iff no row selects it, and the family list holds exactly those words. -/
theorem unrecognizedWordsByFamily : Obligations.UnrecognizedWordsByFamily := fun w =>
  ⟨by rw [unrecognizedWord_iff_noRow, decodeWord_eq_unrec_iff, and_iff_right rfl],
    fun op h => ((decodeWord_eq_unrec_iff w op).1 h).1⟩

end Sys2Proof
end

section
/-! PROOFS. Jumps and skips (40_control_flow.md sections 2 and 3): each of them only sets `pc`, so each is written as one
`jumpTo` from the state before the step, and what it changes and keeps is said once, of `jumpTo`. -/

namespace Sys2Proof.Machine

/-! ### Encodings -/

/-- Row `k` of the opcode map selects its instruction, rows counted from 0 (30_encoding.md rule R76). -/
theorem selectedBy_row (k : Nat) (hk : k < opcodeTable.length) :
    SelectedBy opcodeTable[k].mask opcodeTable[k].pattern opcodeTable[k].build :=
  selectedBy_of_mem (List.getElem_mem hk)

/-! ### Setting `pc` -/

@[simp] theorem State.advance_jumpTo (s : State) (w : Word) : s.advance.jumpTo w = s.jumpTo w := rfl

@[simp] theorem State.jumpTo_pc_self (s : State) : s.jumpTo s.pc = s := rfl

theorem keeps_jumpTo (s : State) (w : Word) : Keeps [.pc] s (s.jumpTo w) := by
  intro p hp
  cases p
  case pc => exact absurd (List.mem_singleton.2 rfl) hp
  all_goals simp [Part.same, State.readV, State.readMem]

/-- What a claim asks of an instruction whose whole effect is to set `pc`. -/
theorem completes_of_exec_jumpTo {i : Instr} {s : State} {w : Word} (h : exec i s = .next (s.jumpTo w)) :
    ∃ t, exec i s = .next t ∧ t.pc = w ∧ Keeps [.pc] s t :=
  ⟨s.jumpTo w, h, rfl, keeps_jumpTo s w⟩

/-! ### Skips (rule R104): the advance and the skip together are 4, the advance alone is 2 -/

theorem State.advance_skipIf (s : State) (c : Bool) :
    s.advance.skipIf c = s.jumpTo (if c then s.pc + 4 else s.pc + 2) := by
  cases c with
  | false => rfl
  | true =>
    have htwice : s.pc + 2 + 2 = s.pc + 4 := BitVec.add_assoc s.pc 2 2
    exact congrArg s.jumpTo htwice

theorem State.advance_skipIf_beq (s : State) (a b : Byte) :
    s.advance.skipIf (a == b) = s.jumpTo (if a = b then s.pc + 4 else s.pc + 2) := by
  simp only [State.advance_skipIf, beq_iff_eq]

theorem State.advance_skipIf_bne (s : State) (a b : Byte) :
    s.advance.skipIf (a != b) = s.jumpTo (if a = b then s.pc + 2 else s.pc + 4) := by
  simp only [State.advance_skipIf, bne_iff_ne, ite_not]

/-! ### The instructions -/

theorem exec_jp (nnn : Addr12) (s : State) : exec (.jp nnn) s = .next (s.jumpTo (absoluteTarget nnn)) :=
  congrArg Host.Outcome.next (s.advance_jumpTo (absoluteTarget nnn))

theorem exec_seImm (x : RegIx) (nn : Byte) (s : State) :
    exec (.seImm x nn) s = .next (s.jumpTo (if s.readV x = nn then s.pc + 4 else s.pc + 2)) :=
  congrArg Host.Outcome.next (s.advance_skipIf_beq (s.readV x) nn)

theorem exec_sneImm (x : RegIx) (nn : Byte) (s : State) :
    exec (.sneImm x nn) s = .next (s.jumpTo (if s.readV x = nn then s.pc + 2 else s.pc + 4)) :=
  congrArg Host.Outcome.next (s.advance_skipIf_bne (s.readV x) nn)

theorem exec_seReg (x y : RegIx) (s : State) :
    exec (.seReg x y) s = .next (s.jumpTo (if s.readV x = s.readV y then s.pc + 4 else s.pc + 2)) :=
  congrArg Host.Outcome.next (s.advance_skipIf_beq (s.readV x) (s.readV y))

theorem exec_sneReg (x y : RegIx) (s : State) :
    exec (.sneReg x y) s = .next (s.jumpTo (if s.readV x = s.readV y then s.pc + 2 else s.pc + 4)) :=
  congrArg Host.Outcome.next (s.advance_skipIf_bne (s.readV x) (s.readV y))

/-- A jump to the address of the instruction itself is the endless loop of rule R102. -/
theorem exec_jp_self {s : State} {nnn : Addr12} (h : s.pc.toNat = nnn.toNat) : exec (.jp nnn) s = .next s := by
  have htarget : absoluteTarget nnn = s.pc := BitVec.eq_of_toNat_eq ((absoluteTarget_toNat nnn).trans h.symm)
  rw [exec_jp, htarget, State.jumpTo_pc_self]

/-! ### The obligations -/

/-- Settles O17: the jump sets `pc` to the target, and a `pc` that is the target already is set to itself. -/
theorem jumpSetsPc : Obligations.JumpSetsPc :=
  ⟨selectedBy_row 2 (by decide), fun s nnn =>
    ⟨⟨_, exec_jp nnn s, absoluteTarget_toNat nnn, keeps_jumpTo s _⟩, exec_jp_self⟩⟩

/-- Settles O19: both skips set `pc`, each by the comparison of the register with the immediate. -/
theorem immediateSkips : Obligations.ImmediateSkips :=
  ⟨selectedBy_row 4 (by decide), selectedBy_row 5 (by decide), fun s x nn =>
    ⟨completes_of_exec_jumpTo (exec_seImm x nn s), completes_of_exec_jumpTo (exec_sneImm x nn s)⟩⟩

/-- Settles O20: both skips set `pc`, each by the comparison of the two registers. -/
theorem registerSkips : Obligations.RegisterSkips :=
  ⟨selectedBy_row 6 (by decide), selectedBy_row 18 (by decide), fun s x y =>
    ⟨completes_of_exec_jumpTo (exec_seReg x y s), completes_of_exec_jumpTo (exec_sneReg x y s)⟩⟩

end Sys2Proof.Machine
end

section
/-! PROOFS. Arithmetic (41_alu.md section 3): an instruction without a flag advances `pc` and writes one register, so what it
changes and keeps is said once, of `writeV` after `advance`. -/

namespace Sys2Proof.Machine

/-! ### Writing one register (rules R22, R23) -/

theorem State.readV_writeV_same (s : State) (x : RegIx) (b : Byte) : (s.writeV x b).readV x = b := by
  rw [State.readV_writeV, if_pos rfl]

theorem State.readV_writeV_other (s : State) {x j : RegIx} (b : Byte) (hj : j ≠ x) :
    (s.writeV x b).readV j = s.readV j := by
  rw [State.readV_writeV, if_neg hj]

theorem keeps_writeV (s : State) (x : RegIx) (b : Byte) : Keeps [.v] s (s.writeV x b) := by
  intro p hp
  cases p
  case v => exact absurd (List.mem_singleton.2 rfl) hp
  all_goals simp [Part.same]

theorem keeps_advance (s : State) : Keeps [.pc] s s.advance := keeps_jumpTo s (s.pc + 2)

theorem keeps_advance_writeV (s : State) (x : RegIx) (b : Byte) : Keeps [.pc, .v] s (s.advance.writeV x b) :=
  keeps_trans (keeps_mono (keeps_advance s) (by simp)) (keeps_mono (keeps_writeV s.advance x b) (by simp))

/-- What a claim asks of an instruction whose whole effect is to advance and write one register. -/
theorem completes_of_exec_writeV {i : Instr} {s : State} {x : RegIx} {b : Byte}
    (h : exec i s = .next (s.advance.writeV x b)) :
    ∃ t, exec i s = .next t ∧ t.readV x = b ∧ (∀ j, j ≠ x → t.readV j = s.readV j) ∧ t.pc = s.pc + 2 ∧
      Keeps [.pc, .v] s t :=
  ⟨s.advance.writeV x b, h, State.readV_writeV_same _ x b, fun _ hj => State.readV_writeV_other s.advance b hj, rfl,
    keeps_advance_writeV s x b⟩

/-! ### The instructions -/

theorem exec_ldImm (x : RegIx) (nn : Byte) (s : State) : exec (.ldImm x nn) s = .next (s.advance.writeV x nn) := rfl

theorem exec_addImm (x : RegIx) (nn : Byte) (s : State) :
    exec (.addImm x nn) s = .next (s.advance.writeV x (s.readV x + nn)) := rfl

theorem exec_ldReg (x y : RegIx) (s : State) : exec (.ldReg x y) s = .next (s.advance.writeV x (s.readV y)) := rfl

/-! ### The obligation -/

/-- Settles O24: each of the three writes V[X] and no other register; a sum of bytes is the sum modulo 256. -/
theorem loadsAndAddImmediate : Obligations.LoadsAndAddImmediate := by
  refine ⟨selectedBy_row 7 (by decide), selectedBy_row 8 (by decide), selectedBy_row 9 (by decide), fun s x y nn =>
    ⟨completes_of_exec_writeV (exec_ldImm x nn s), ?_, completes_of_exec_writeV (exec_ldReg x y s)⟩⟩
  obtain ⟨t, hnext, hsum, hrest⟩ := completes_of_exec_writeV (exec_addImm x nn s)
  exact ⟨t, hnext, by rw [hsum, BitVec.toNat_add], hrest⟩

end Sys2Proof.Machine
end

section
/-! PROOFS. The index register (42_index_memory.md): an instruction that only sets `I` advances `pc` and writes `I`, so what it
changes and keeps is said once, of `setI` after `advance`. -/

namespace Sys2Proof.Machine

/-! ### Setting `I` -/

theorem keeps_setI (s : State) (w : Word) : Keeps [.i] s (s.setI w) := by
  intro p hp
  cases p
  case i => exact absurd (List.mem_singleton.2 rfl) hp
  all_goals simp [Part.same]

theorem keeps_advance_setI (s : State) (w : Word) : Keeps [.pc, .i] s (s.advance.setI w) :=
  keeps_trans (keeps_mono (keeps_advance s) (by simp)) (keeps_mono (keeps_setI s.advance w) (by simp))

/-- What a claim asks of an instruction whose whole effect is to advance and set `I`. -/
theorem completes_of_exec_setI {i : Instr} {s : State} {w : Word} (h : exec i s = .next (s.advance.setI w)) :
    ∃ t, exec i s = .next t ∧ t.i = w ∧ t.pc = s.pc + 2 ∧ Keeps [.pc, .i] s t :=
  ⟨s.advance.setI w, h, State.setI_i _ w, rfl, keeps_advance_setI s w⟩

/-! ### The instruction -/

theorem exec_ldI (nnn : Addr12) (s : State) : exec (.ldI nnn) s = .next (s.advance.setI (absoluteTarget nnn)) := rfl

/-! ### The obligation -/

/-- Settles O30: the word set into `I` is the 12-bit address zero-extended, so as a number it is NNN. -/
theorem loadIndexImmediate : Obligations.LoadIndexImmediate := by
  refine ⟨selectedBy_row 19 (by decide), fun s nnn => ?_⟩
  obtain ⟨t, hnext, hi, hrest⟩ := completes_of_exec_setI (exec_ldI nnn s)
  exact ⟨t, hnext, by rw [hi, absoluteTarget_toNat], hrest⟩

end Sys2Proof.Machine
end

section
/-! PROOFS. The display (43_display.md): what 00E0 leaves, and DXYN said pixel by pixel, as an exclusive or with the sprite bits
that fall on the display; the laws of rule R152 follow from that one equation and from when a collision is reported. -/

namespace Sys2Proof.Machine

/-! ### Setting the display -/

theorem keeps_setDisplay (s : State) (d : Display) : Keeps [.display] s (s.setDisplay d) := by
  intro p hp
  cases p
  case display => exact absurd (List.mem_singleton.2 rfl) hp
  all_goals simp [Part.same]

theorem keeps_advance_setDisplay (s : State) (d : Display) : Keeps [.pc, .display] s (s.advance.setDisplay d) :=
  keeps_trans (keeps_mono (keeps_advance s) (by simp)) (keeps_mono (keeps_setDisplay s.advance d) (by simp))

/-! ### 00E0 (rule R150) -/

theorem exec_cls (s : State) : exec .cls s = .next (s.advance.setDisplay blankDisplay) := rfl

/-- Settles O37: the next state shows the blank display, whose pixels are all off, and has an advanced `pc`. -/
theorem clearDisplay : Obligations.ClearDisplay :=
  ⟨selectedBy_row 0 (by decide), fun s => ⟨s.advance.setDisplay blankDisplay, exec_cls s, pixel_blankDisplay, rfl,
    keeps_advance_setDisplay s blankDisplay⟩⟩

/-! ### The next state of DXYN (rule R151) -/

/-- The next state of a DXYN that does not fault. -/
def State.afterDraw (x y : RegIx) (n : Height) (s : State) : State :=
  (s.advance.setDisplay (Machine.drawn x y n s).1).writeV vf (flagByte (Machine.drawn x y n s).2)

theorem accessOk_of_no_drawFault {s : State} {x y : RegIx} {n : Height} (h : faultCause (.drw x y n) s = .none) :
    accessOk s.i.toNat (spriteRows n (spriteRow (s.readV y))) = true := by
  simp only [faultCause, ite_eq_right_iff, reduceCtorEq, imp_false] at h
  rw [accessOk_iff, spriteRows, spriteRow]
  omega

theorem exec_drw_of_no_fault {s : State} {x y : RegIx} {n : Height} (h : faultCause (.drw x y n) s = .none) :
    exec (.drw x y n) s = .next (s.afterDraw x y n) :=
  if_pos (accessOk_of_no_drawFault h)

theorem State.readV_vf_afterDraw (s : State) (x y : RegIx) (n : Height) :
    (s.afterDraw x y n).readV vf = flagByte (Machine.drawn x y n s).2 :=
  State.readV_writeV_same _ vf _

/-! ### The sprite bits -/

theorem spriteBytes_length (y : RegIx) (n : Height) (s : State) :
    (spriteBytes y n s).length = spriteRows n (spriteRow (s.readV y)) :=
  Memory.readBytes_length _ _ _

theorem spriteBytes_getD {y : RegIx} {n : Height} {s : State} {k : Nat} (hk : k < (spriteBytes y n s).length) :
    (spriteBytes y n s).getD k 0 = s.readMem (s.i.toNat + k) := by
  rw [List.getD_eq_getElem _ _ hk]
  exact Memory.readBytes_getElem _ _ _ _ (spriteBytes_length y n s ▸ hk)

/-- The drawn rows end above the bottom edge. -/
theorem spriteBytes_fit (y : RegIx) (n : Height) (s : State) :
    spriteRow (s.readV y) + (spriteBytes y n s).length ≤ 32 := by
  rw [spriteBytes_length]
  exact spriteRows_le n _ (spriteRow_lt _).le

/-- On the display, the bits of the bytes that DXYN reads are the sprite bits of the claims. -/
theorem spriteBit_spriteBytes (s : State) (x y : RegIx) (n : Height) (r : Nat) {c : Nat} (hc : c < 64) :
    spriteBit (spriteColumn (s.readV x)) (spriteRow (s.readV y)) (spriteBytes y n s) r c = drawnBit s x y n r c := by
  have hrect : (spriteRow (s.readV y) ≤ r ∧ r < spriteRow (s.readV y) + (spriteBytes y n s).length ∧
      spriteColumn (s.readV x) ≤ c ∧ c < spriteColumn (s.readV x) + 8) ↔
      ((s.readV y).toNat % 32 ≤ r ∧ r < (s.readV y).toNat % 32 + n.val ∧ r < 32 ∧
        (s.readV x).toNat % 64 ≤ c ∧ c < (s.readV x).toNat % 64 + 8 ∧ c < 64) := by
    rw [spriteBytes_length, spriteRows, spriteRow, spriteColumn]
    omega
  rw [Bool.eq_iff_iff, spriteBit, drawnBit, Bool.and_eq_true, Bool.and_eq_true, decide_eq_true_iff, decide_eq_true_iff, ← hrect]
  refine and_congr_right fun ⟨htop, hbottom, _⟩ => ?_
  rw [spriteBytes_getD (by omega)]
  rfl

/-- A sprite bit falls only on the rectangle that the origin and the height give. -/
theorem drawnBit_eq_false_of_outside {s : State} {x y : RegIx} {n : Height} {r c : Nat}
    (hout : ¬ ((s.readV y).toNat % 32 ≤ r ∧ r < (s.readV y).toNat % 32 + n.val ∧
      (s.readV x).toNat % 64 ≤ c ∧ c < (s.readV x).toNat % 64 + 8)) : drawnBit s x y n r c = false := by
  rw [drawnBit, Bool.and_eq_false_iff, decide_eq_false_iff_not]
  exact .inl fun ⟨hr, hrn, _, hc, hc8, _⟩ => hout ⟨hr, hrn, hc, hc8⟩

theorem drawnBit_eq_false_of_clipped (s : State) (x y : RegIx) (n : Height) (r : Nat) {c : Nat} (hc : ¬ c < 64) :
    drawnBit s x y n r c = false := by
  rw [drawnBit, Bool.and_eq_false_iff, decide_eq_false_iff_not]
  exact .inl fun ⟨_, _, _, _, _, hlt⟩ => hc hlt

/-! ### Pixels and collision after DXYN (rule R151) -/

/-- DXYN adds the sprite bits to the display; beyond the right edge both sides are off. -/
theorem State.pixel_afterDraw (s : State) (x y : RegIx) (n : Height) (r c : Nat) :
    pixel (s.afterDraw x y n).display r c = (pixel s.display r c ^^ drawnBit s x y n r c) := by
  by_cases hc : c < 64
  · rw [← spriteBit_spriteBytes s x y n r hc]
    exact pixel_drawRows _ _ _ (spriteBytes_fit y n s) _ r c hc
  · rw [pixel_outside _ (fun h => hc h.2), pixel_outside _ (fun h => hc h.2), drawnBit_eq_false_of_clipped s x y n r hc]
    rfl

theorem flagByte_eq_one_iff (b : Bool) : flagByte b = 1 ↔ b = true := by
  cases b <;> decide

/-- DXYN reports a collision iff a sprite bit falls on a pixel that was on before it. -/
theorem State.afterDraw_collision (s : State) (x y : RegIx) (n : Height) :
    (s.afterDraw x y n).readV vf = 1 ↔
      ∃ r c, r < 32 ∧ c < 64 ∧ drawnBit s x y n r c = true ∧ pixel s.display r c = true := by
  rw [State.readV_vf_afterDraw, flagByte_eq_one_iff, Machine.drawn, drawRows_collision _ _ _ (spriteBytes_fit y n s)]
  simp only [Bool.false_eq_true, false_or]
  refine exists_congr fun r => exists_congr fun c => and_congr_right fun _ => and_congr_right fun hc => ?_
  rw [spriteBit_spriteBytes s x y n r hc]

/-! ### The laws of DXYN (rule R152) -/

section SameSprite

variable {s u : State} {x y x' y' : RegIx}

/-- A DXYN depends on its registers only through the origin they give. -/
theorem drawnBit_congr (n : Height) (hi : u.i = s.i) (hmem : ∀ a, u.readMem a = s.readMem a)
    (hx : (u.readV x').toNat % 64 = (s.readV x).toNat % 64) (hy : (u.readV y').toNat % 32 = (s.readV y).toNat % 32)
    (r c : Nat) : drawnBit u x' y' n r c = drawnBit s x y n r c := by
  simp only [drawnBit, hi, hmem, hx, hy]

theorem drawFault_congr (n : Height) (hi : u.i = s.i)
    (hy : (u.readV y').toNat % 32 = (s.readV y).toNat % 32) :
    faultCause (.drw x' y' n) u = faultCause (.drw x y n) s := by
  simp only [faultCause, hi, hy]

end SameSprite

/-- The second draw meets a lit pixel under a sprite bit exactly where the first turned a pixel on. -/
theorem bit_and_xor_iff (p b : Bool) : (b = true ∧ (p ^^ b) = true) ↔ (p = false ∧ (p ^^ b) = true) := by
  cases p <;> cases b <;> decide

/-- Settles O39: the second draw adds the same sprite bits again, and adding a bit twice gives the pixel back. -/
theorem drawTwiceRestoresDisplay : Obligations.DrawTwiceRestoresDisplay := by
  intro s x y n hfault
  refine ⟨s.afterDraw x y n, exec_drw_of_no_fault hfault, fun u x' y' hdisplay hi hmem hx hy => ?_⟩
  have hbit : ∀ r c, drawnBit u x' y' n r c = drawnBit s x y n r c := drawnBit_congr n hi hmem hx hy
  refine ⟨u.afterDraw x' y' n, exec_drw_of_no_fault ((drawFault_congr n hi hy).trans hfault), ?_, ?_⟩
  · apply display_ext
    intro r c _ _
    rw [State.pixel_afterDraw, hdisplay, hbit, State.pixel_afterDraw, Bool.xor_assoc, Bool.xor_self, Bool.xor_false]
  · simp only [State.afterDraw_collision, hdisplay, hbit, State.pixel_afterDraw, bit_and_xor_iff]

/-- Settles O40: no sprite bit falls outside the rectangle, and on a blank display none meets a lit pixel. -/
theorem drawStaysInRectangle : Obligations.DrawStaysInRectangle := by
  intro s t x y n hfault hnext
  obtain rfl : s.afterDraw x y n = t := by
    simpa only [exec_drw_of_no_fault hfault, Host.Outcome.next.injEq] using hnext
  refine ⟨fun r c hout => ?_, fun hblank => ?_⟩
  · rw [State.pixel_afterDraw, drawnBit_eq_false_of_outside hout, Bool.xor_false]
  · have hnone : (s.afterDraw x y n).readV vf ≠ 1 := by
      simp only [ne_eq, State.afterDraw_collision, hblank, Bool.false_eq_true, and_false, exists_false, not_false_eq_true]
    rw [State.readV_vf_afterDraw] at hnone ⊢
    exact (flagByte_eq_zero_or_one _).resolve_right hnone

end Sys2Proof.Machine
end

section
/-! PROOFS. How a run ends (70_reset_and_hazards.md section 3): what an instruction and each action can do to `RUN` and `FAULT`.
The case lemmas of `Tick` and of the key events, beside `doStep_cases`, say when an action is enabled. -/

namespace Sys2Proof.Machine

/-! ### Instructions (60_exceptions.md rule R176) -/

/-- Fault entry with a cause, or a next state with `RUN` and `FAULT` as they were. -/
def FaultsOrRunsOn (s : State) (r : Result) : Prop :=
  (∃ c, c ≠ .none ∧ r = raise c s) ∨ ∃ t, r = .next t ∧ t.run = s.run ∧ t.fault = s.fault

theorem faultsOrRunsOn_raise {c : FaultCode} (s : State) (hc : c ≠ .none) : FaultsOrRunsOn s (raise c s) :=
  .inl ⟨c, hc, rfl⟩

theorem faultsOrRunsOn_next {s t : State} (hrun : t.run = s.run) (hfault : t.fault = s.fault) :
    FaultsOrRunsOn s (.next t) :=
  .inr ⟨t, rfl, hrun, hfault⟩

/-- An access check in front of a body (20_memory.md rule R55). -/
theorem faultsOrRunsOn_ite {s t : State} {ok : Prop} [Decidable ok] (hrun : t.run = s.run) (hfault : t.fault = s.fault) :
    FaultsOrRunsOn s (if ok then .next t else raise .memOutOfRange s) := by
  split
  · exact faultsOrRunsOn_next hrun hfault
  · exact faultsOrRunsOn_raise s (by decide)

theorem execRet_faultsOrRunsOn (s : State) : FaultsOrRunsOn s (execRet s) := by
  rcases s.advance.pop_cases with ⟨_, hpop⟩ | ⟨_, _, _, hpop⟩
  · rw [execRet, hpop]; exact faultsOrRunsOn_raise s (by decide)
  · rw [execRet, hpop]; exact faultsOrRunsOn_next rfl rfl

theorem execCall_faultsOrRunsOn (nnn : Addr12) (s : State) : FaultsOrRunsOn s (execCall nnn s) := by
  rcases s.advance.push_cases s.advance.pc with ⟨_, hpush⟩ | ⟨_, hpush⟩
  · rw [execCall, hpush]; exact faultsOrRunsOn_raise s (by decide)
  · rw [execCall, hpush]; exact faultsOrRunsOn_next rfl rfl

theorem execSkp_faultsOrRunsOn (x : RegIx) (s : State) : FaultsOrRunsOn s (execSkp x s) := by
  unfold execSkp
  split
  · exact faultsOrRunsOn_next rfl rfl
  · exact faultsOrRunsOn_raise s (by decide)

theorem execSknp_faultsOrRunsOn (x : RegIx) (s : State) : FaultsOrRunsOn s (execSknp x s) := by
  unfold execSknp
  split
  · exact faultsOrRunsOn_next rfl rfl
  · exact faultsOrRunsOn_raise s (by decide)

theorem execLdVxK_faultsOrRunsOn (x : RegIx) (s : State) : FaultsOrRunsOn s (execLdVxK x s) := by
  unfold execLdVxK
  split
  · exact faultsOrRunsOn_next rfl rfl
  · split <;> exact faultsOrRunsOn_next rfl rfl

/-- Everything an instruction can do to `RUN` and `FAULT`; every instruction gives a next state. -/
theorem exec_faultsOrRunsOn (i : Instr) (s : State) : FaultsOrRunsOn s (exec i s) := by
  cases i
  case ret => exact execRet_faultsOrRunsOn s
  case call nnn => exact execCall_faultsOrRunsOn nnn s
  case skp x => exact execSkp_faultsOrRunsOn x s
  case sknp x => exact execSknp_faultsOrRunsOn x s
  case ldVxK x => exact execLdVxK_faultsOrRunsOn x s
  case drw | ldB | ldMemVx | ldVxMem => exact faultsOrRunsOn_ite rfl rfl
  case orReg | andReg | xorReg => exact faultsOrRunsOn_next (State.writeLogic_run _ _ _) (State.writeLogic_fault _ _ _)
  all_goals exact faultsOrRunsOn_next rfl rfl

/-! ### Actions (60_exceptions.md rules R180 to R182) -/

/-- Everything a `Tick` can do. -/
theorem doTick_cases (s : State) :
    (s.run = .halted ∧ doTick s = .fault (.notEnabled .tick)) ∨
      (s.run ≠ .halted ∧ doTick s = .next ((s.setDt (countDown s.dt)).setSt (countDown s.st))) := by
  unfold doTick
  cases s.run with
  | running | paused => exact .inr ⟨by decide, rfl⟩
  | halted => exact .inl ⟨rfl, rfl⟩

/-- Everything a key event can do. -/
theorem doKey_cases (k : KeyIx) (down : Bool) (s : State) :
    (s.run = .halted ∧ doKey k down s = .fault (.notEnabled (.input (if down then .keyDown k else .keyUp k)))) ∨
      (s.run ≠ .halted ∧ doKey k down s = .next (s.setKeypad (withKey k down s.keypad))) := by
  unfold doKey
  cases s.run with
  | running | paused => exact .inr ⟨by decide, rfl⟩
  | halted => exact .inl ⟨rfl, rfl⟩

theorem doTick_next_run {s t : State} (h : doTick s = .next t) : t.run = s.run := by
  rcases doTick_cases s with ⟨_, e⟩ | ⟨_, e⟩ <;> cases e.symm.trans h
  rfl

theorem doKey_next_run {k : KeyIx} {down : Bool} {s t : State} (h : doKey k down s = .next t) : t.run = s.run := by
  rcases doKey_cases k down s with ⟨_, e⟩ | ⟨_, e⟩ <;> cases e.symm.trans h
  rfl

theorem afterPauseToggle_eq_halted {r : RunState} (h : afterPauseToggle r = .halted) : r = .halted := by
  cases r with
  | running | paused => cases h
  | halted => rfl

/-- A `Step` halts the machine only by a fault. -/
theorem doStep_halts {s t : State} (h : doStep s = .next t) (ht : t.run = .halted) : t.fault ≠ .none := by
  rcases doStep_cases s with ⟨_, e⟩ | ⟨_, _, e⟩ | ⟨hr, _, e⟩
  · cases e.symm.trans h
  · cases e.symm.trans h; exact show FaultCode.memOutOfRange ≠ .none by decide
  · rcases exec_faultsOrRunsOn (decodeWord s.fetchWord) s with ⟨c, hc, e'⟩ | ⟨u, e', hrun, _⟩
    · cases e'.symm.trans (e.symm.trans h); exact hc
    · cases e'.symm.trans (e.symm.trans h)
      exact absurd (hrun.symm.trans ht) (by rw [hr]; decide)

/-- Only `Quit` and a faulting `Step` take the machine to Halted. -/
theorem act_halts {a : Action} {s t : State} (hr : s.run ≠ .halted) (h : act a s = .next t) (ht : t.run = .halted) :
    (a = .input .quit ∧ t.fault = s.fault) ∨ (a = .step ∧ t.fault ≠ .none) := by
  cases a with
  | step => exact .inr ⟨rfl, doStep_halts h ht⟩
  | tick => exact absurd ((doTick_next_run h).symm.trans ht) hr
  | observe => cases h; exact absurd ht hr
  | input e =>
    cases e with
    | keyDown k => exact absurd ((doKey_next_run (down := true) h).symm.trans ht) hr
    | keyUp k => exact absurd ((doKey_next_run (down := false) h).symm.trans ht) hr
    | pauseToggle => cases h; exact absurd (afterPauseToggle_eq_halted ht) hr
    | quit => cases h; exact .inl ⟨rfl, rfl⟩

/-! ### The obligation -/

/-- Settles O55: by the actions, of which only `Quit` and a faulting `Step` halt; before `Quit` the invariant says that `FAULT`
is still `None`. -/
theorem runEndsOnlyByQuitOrFault : Obligations.RunEndsOnlyByQuitOrFault := by
  intro s t hinv hr hstep ht
  have hnone : s.fault = .none := not_not.1 fun hfault => hr (hinv.faultHalts hfault)
  refine (act_halts (by simpa using hr) hstep ht).imp_left fun ⟨hquit, hfault⟩ => ⟨hquit, ?_⟩
  rw [hfault, State.popAgenda_fault, hnone]

end Sys2Proof.Machine
end

section
/-! PROOFS. The documented schedule (70_reset_and_hazards.md rule R202). Actions taken one after the other are a run of the same
state with those actions on its agenda (`run_withPlan`); the rest is which agenda the next step sees. -/

namespace Sys2Proof.Machine

/-! ### Enabled actions -/

theorem enabled_tick_iff {r : RunState} : enabled r .tick = true ↔ r ≠ .halted := by
  cases r <;> decide

theorem enabled_keyDown_iff {r : RunState} {k : KeyIx} : enabled r (.input (.keyDown k)) = true ↔ r ≠ .halted := by
  cases r <;> simp [enabled]

theorem enabled_keyUp_iff {r : RunState} {k : KeyIx} : enabled r (.input (.keyUp k)) = true ↔ r ≠ .halted := by
  cases r <;> simp [enabled]

/-- An action that happens was enabled. -/
theorem enabled_of_act_next {a : Action} {s t : State} (h : act a s = .next t) : enabled s.run a = true := by
  cases a with
  | step =>
    rcases doStep_cases s with ⟨_, e⟩ | ⟨hr, _⟩ | ⟨hr, _⟩
    · cases e.symm.trans h
    · rw [hr]; rfl
    · rw [hr]; rfl
  | tick =>
    rcases doTick_cases s with ⟨_, e⟩ | ⟨hr, _⟩
    · cases e.symm.trans h
    · exact enabled_tick_iff.2 hr
  | observe => rfl
  | input e =>
    cases e with
    | keyDown k =>
      rcases doKey_cases k true s with ⟨_, e⟩ | ⟨hr, _⟩
      · cases e.symm.trans h
      · exact enabled_keyDown_iff.2 hr
    | keyUp k =>
      rcases doKey_cases k false s with ⟨_, e⟩ | ⟨hr, _⟩
      · cases e.symm.trans h
      · exact enabled_keyUp_iff.2 hr
    | pauseToggle | quit => rfl

/-- While Halted, what is enabled happens. -/
theorem act_next_of_enabled_halted {a : Action} (s : State) (ha : enabled .halted a = true) : ∃ t, act a s = .next t := by
  cases a with
  | step | tick => cases ha
  | observe => exact ⟨s, rfl⟩
  | input e =>
    cases e with
    | keyDown k | keyUp k => cases ha
    | pauseToggle | quit => exact ⟨_, rfl⟩

/-- No action changes the plan. -/
theorem act_next_keeps_plan {a : Action} {s t : State} (h : act a s = .next t) :
    t.agenda = s.agenda ∧ t.schedule = s.schedule := by
  have hplan : act a s = .next (t.withPlan s.agenda s.schedule) := act_next_withPlan h s.agenda s.schedule
  have hsame : t = t.withPlan s.agenda s.schedule := Host.Outcome.next.inj (h.symm.trans hplan)
  exact ⟨(congrArg State.agenda hsame :), (congrArg State.schedule hsame :)⟩

/-! ### The first enabled action of an agenda -/

theorem firstEnabled_of_enabled {r : RunState} {a : Action} (ha : enabled r a = true) (l : List Action) :
    firstEnabled r (a :: l) = a :: l := by
  simp [firstEnabled, ha]

theorem enabled_of_firstEnabled {r : RunState} {a : Action} {l l' : List Action} (h : firstEnabled r l = a :: l') :
    enabled r a = true := by
  have hhead := List.head?_dropWhile_not (fun b => !enabled r b) l
  rw [← firstEnabled, h] at hhead
  simpa using hhead

/-- An observation on the agenda comes up whatever is passed over before it. -/
theorem firstEnabled_ne_nil {r : RunState} {l : List Action} (h : .observe ∈ l) : firstEnabled r l ≠ [] := by
  rw [firstEnabled, ne_eq, List.dropWhile_eq_nil_iff]
  exact fun hnone => absurd (hnone _ h) (by simp [enabled])

/-! ### What is left once the machine is Halted -/

/-- Settles O49: the first enabled action left over is taken off the agenda, and without one the agenda gives a `Step`, which is
not enabled. -/
theorem scheduleEndsWhenHalted : Obligations.ScheduleEndsWhenHalted := by
  intro s d hd hr
  cases hfirst : firstEnabled s.run s.agenda with
  | nil =>
    have hplanned : s.planned = { s with agenda := [] } := State.planned_of_halted hd hfirst hr
    have hnext : s.nextAction = .step := by rw [State.nextAction, hplanned]; rfl
    refine .inl ⟨?_, hnext⟩
    rw [step, hnext, act, doStep, State.popAgenda_run, hr]
    rfl
  | cons a l =>
    have hplanned : s.planned = { s with agenda := a :: l } := State.planned_of_enabled hd hfirst
    have hnext : s.nextAction = a := by rw [State.nextAction, hplanned]; rfl
    obtain ⟨t, ht⟩ := act_next_of_enabled_halted s.popAgenda (hr ▸ enabled_of_firstEnabled hfirst)
    obtain ⟨hagenda, hschedule⟩ := act_next_keeps_plan ht
    have hshorter : (a :: l).length ≤ s.agenda.length := hfirst ▸ (List.dropWhile_suffix _).length_le
    refine .inr ⟨t, by rw [step, hnext, ht], ?_, ?_⟩
    · rw [hschedule, State.popAgenda_schedule, hplanned, hd]
    · rw [hagenda, State.popAgenda_agenda, hplanned]
      exact hshorter

/-! ### Runs and sequences of actions -/

theorem run_succ_of_step {M : Host.Core} {s t : M.State} (h : M.step s = .next t) (n : Nat) :
    M.run (n + 1) s = M.run n t := by
  rw [Host.Core.run, h]

theorem run_succ_congr {M : Host.Core} {s t : M.State} (h : M.step s = M.step t) (n : Nat) :
    M.run (n + 1) s = M.run (n + 1) t := by
  rw [Host.Core.run, Host.Core.run, h]

theorem run_add_of_run {M : Host.Core} {m : Nat} {s t : M.State} (h : M.run m s = .next t) (n : Nat) :
    M.run (m + n) s = M.run n t := by
  induction m generalizing s with
  | zero => rw [Nat.zero_add, Host.Outcome.next.inj h]
  | succ m ih =>
    cases hstep : M.step s with
    | next u =>
      rw [run_succ_of_step hstep] at h
      rw [Nat.succ_add, run_succ_of_step hstep, ih h]
    | fault | refused => rw [Host.Core.run, hstep] at h; cases h

theorem actAll_cons_next {a : Action} {as : List Action} {s t : State} (h : actAll (a :: as) s = .next t) :
    ∃ u, act a s = .next u ∧ actAll as u = .next t := by
  rw [actAll] at h
  split at h
  case h_1 u hu => exact ⟨u, hu, h⟩
  all_goals cases h

/-! ### Steps under a schedule -/

theorem step_congr {s t : State} (h : s.planned = t.planned) : step s = step t := by
  simp only [step, State.nextAction, State.popAgenda, h]

theorem State.planned_withPlan {s : State} {l : List Action} (h : firstEnabled s.run l ≠ []) (d : Schedule) :
    (s.withPlan l (some d)).planned = s.withPlan (firstEnabled s.run l) (some d) := by
  obtain ⟨a, l', hfirst⟩ := List.exists_cons_of_ne_nil h
  rw [hfirst]
  exact State.planned_of_enabled (s := s.withPlan l (some d)) rfl hfirst

/-- An action that is next on the agenda and can be taken is what the step does. -/
theorem step_withPlan {a : Action} {s t : State} (h : act a s = .next t) (l : List Action) (d : Schedule) :
    step (s.withPlan (a :: l) (some d)) = .next (t.withPlan l (some d)) := by
  have hfirst : firstEnabled s.run (a :: l) = a :: l := firstEnabled_of_enabled (enabled_of_act_next h) l
  have hplanned : (s.withPlan (a :: l) (some d)).planned = s.withPlan (a :: l) (some d) := by
    rw [State.planned_withPlan (by simp [hfirst]), hfirst]
  rw [step, State.nextAction, State.popAgenda, hplanned]
  exact act_next_withPlan h l (some d)

/-- Actions on the agenda that can be taken one after the other are what as many steps do. -/
theorem run_withPlan {as : List Action} {s t : State} (h : actAll as s = .next t) (l : List Action) (d : Schedule) :
    Sys2Proof.core.run as.length (s.withPlan (as ++ l) (some d)) = .next (t.withPlan l (some d)) := by
  induction as generalizing s with
  | nil => cases h; rfl
  | cons a as ih =>
    obtain ⟨u, hu, hrest⟩ := actAll_cons_next h
    exact (run_succ_of_step (M := Sys2Proof.core) (step_withPlan hu (as ++ l) d) as.length).trans (ih hrest)

/-- While the machine is not Running, the steps left of a burst are passed over. -/
theorem run_withPlan_burst {s : State} (hr : s.run ≠ .running) (n k : Nat) (l : List Action) (d : Schedule) :
    Sys2Proof.core.run (n + 1) (s.withPlan (List.replicate k .step ++ .observe :: l) (some d)) =
      Sys2Proof.core.run (n + 1) (s.withPlan (.observe :: l) (some d)) := by
  refine run_succ_congr (M := Sys2Proof.core) (step_congr ?_) n
  rw [State.planned_withPlan (firstEnabled_ne_nil (by simp)), State.planned_withPlan (firstEnabled_ne_nil (by simp)),
    firstEnabled_burst hr, firstEnabled_of_enabled rfl]

/-- A frame whose burst has ended early goes on with the observation. -/
theorem run_observation {s : State} (hr : s.run ≠ .running) (k : Nat) (d : Schedule) :
    Sys2Proof.core.run 1 (s.withPlan (List.replicate k .step ++ [.observe, .tick]) (some d)) =
      .next (s.withPlan [.tick] (some d)) :=
  (run_withPlan_burst hr 0 k [.tick] d).trans (run_withPlan (as := [.observe]) rfl [.tick] d)

/-! ### Frames -/

/-- The schedule after a frame has begun. -/
def Schedule.next (d : Schedule) : Schedule := { d with pending := d.pending.tail }

/-- When a frame is over, the next one stands on the agenda as a whole. -/
theorem run_frame {s : State} {d : Schedule} (hd : s.schedule = some d) (hagenda : s.agenda = []) (hr : s.run ≠ .halted) (n : Nat) :
    Sys2Proof.core.run (n + 1) s =
      Sys2Proof.core.run (n + 1) (s.withPlan (frameAgenda d.cyclesPerTick (d.pending.headD [])) (some d.next)) := by
  refine run_succ_congr (M := Sys2Proof.core) (step_congr ?_) n
  rw [State.planned_of_frame_over hd (by rw [hagenda]; rfl) hr,
    State.planned_withPlan (firstEnabled_ne_nil (by simp [frameAgenda]))]
  rfl

/-- A frame takes its pending inputs first; the burst, the observation and the `Tick` are then what stands on the agenda. -/
theorem run_inputs {s s1 : State} {d : Schedule} (hd : s.schedule = some d) (hagenda : s.agenda = []) (hr : s.run ≠ .halted)
    (h : actAll ((d.pending.headD []).map Action.input) s = .next s1) (n : Nat) :
    Sys2Proof.core.run ((d.pending.headD []).length + (n + 1)) s =
      Sys2Proof.core.run (n + 1)
        (s1.withPlan (List.replicate d.cyclesPerTick.val .step ++ [.observe, .tick]) (some d.next)) := by
  have hinputs := run_withPlan h (List.replicate d.cyclesPerTick.val .step ++ [.observe, .tick]) d.next
  rw [List.length_map] at hinputs
  exact (run_frame hd hagenda hr _).trans (run_add_of_run (M := Sys2Proof.core) hinputs (n + 1))

/-- A burst of which `k` steps can be taken goes on with the steps that are left. -/
theorem run_burst {s t : State} {k n : Nat} (hk : k ≤ n) (h : actAll (List.replicate k .step) s = .next t)
    (m : Nat) (l : List Action) (d : Schedule) :
    Sys2Proof.core.run (k + m) (s.withPlan (List.replicate n .step ++ l) (some d)) =
      Sys2Proof.core.run m (t.withPlan (List.replicate (n - k) .step ++ l) (some d)) := by
  have hsteps := run_withPlan h (List.replicate (n - k) .step ++ l) d
  rw [← List.append_assoc, List.replicate_append_replicate, Nat.add_sub_cancel' hk, List.length_replicate] at hsteps
  exact run_add_of_run (M := Sys2Proof.core) hsteps m

/-- Settles O48: the frame stands on the agenda as a whole and its inputs are taken; then the rest is taken as it stands, or,
where the machine is not Running, from the observation on. -/
theorem scheduledFramesRunInOrder : Obligations.ScheduledFramesRunInOrder := by
  intro s s1 d hd hagenda hr hinputs
  have hframe := run_inputs hd hagenda hr hinputs
  refine ⟨d.cyclesPerTick.property, fun t _ ht => ?_, fun hpaused => ?_, fun hhalted => ?_, fun k t _ hk ht hhalted => ?_⟩
  · have hrun := run_withPlan ht [] d.next
    rw [List.append_nil, List.length_append, List.length_replicate] at hrun
    exact ⟨_, (hframe _).trans hrun, keeps_withPlan [] (some d.next) t, rfl, rfl⟩
  · have hnot : s1.run ≠ .running := by rw [hpaused]; decide
    obtain ⟨t, ht⟩ : ∃ t, actAll [.observe, .tick] s1 = .next t := by
      simp [actAll, act, doTick, hpaused]
    have hrun := (run_withPlan_burst hnot 1 d.cyclesPerTick.val [.tick] d.next).trans (run_withPlan ht [] d.next)
    exact ⟨t, _, ht, (hframe 1).trans hrun, keeps_withPlan [] (some d.next) t, rfl, rfl⟩
  · have hnot : s1.run ≠ .running := by rw [hhalted]; decide
    exact ⟨_, (hframe 0).trans (run_observation hnot d.cyclesPerTick.val d.next), keeps_withPlan [.tick] (some d.next) s1⟩
  · have hnot : t.run ≠ .running := by rw [hhalted]; decide
    have hrun := (run_burst hk ht 1 [.observe, .tick] d.next).trans (run_observation hnot _ d.next)
    exact ⟨_, (hframe k).trans hrun, keeps_withPlan [.tick] (some d.next) t⟩

end Sys2Proof.Machine
end

section
/-! PROOFS. Encoding and decoding undo each other (30_encoding.md sections 1 and 3): one lemma per format (rule R72) and direction,
then the opcode map row by row. -/

namespace Sys2Proof

open Machine

/-! ### From an instruction to its word and back: the row that the format's fixed digits select reads the operands off again -/

theorem decodeWord_fmtNNN (f : BitVec 4) (c : Addr12 → Instr)
    (h : SelectedBy 0xF000 (fmtNNN f 0) fun w => c (nnnField w)) (nnn : Addr12) : decodeWord (fmtNNN f nnn) = c nnn := by
  simp only [h _ (fmtNNN_row f nnn), nnnField_fmtNNN]

theorem decodeWord_fmtXNN (f : BitVec 4) (c : RegIx → Byte → Instr)
    (h : SelectedBy 0xF000 (fmtXNN f 0 0) fun w => c (xField w) (nnField w)) (x : RegIx) (nn : Byte) :
    decodeWord (fmtXNN f x nn) = c x nn := by
  simp only [h _ (fmtXNN_row f x nn), xField_fmtXNN, nnField_fmtXNN]

theorem decodeWord_fmtXY (f n : BitVec 4) (c : RegIx → RegIx → Instr)
    (h : SelectedBy 0xF00F (fmtXYN f 0 0 n) fun w => c (xField w) (yField w)) (x y : RegIx) :
    decodeWord (fmtXYN f x y n) = c x y := by
  simp only [h _ (fmtXY_row f x y n), xField_fmtXYN, yField_fmtXYN]

theorem decodeWord_fmtXYN (f : BitVec 4) (c : RegIx → RegIx → Height → Instr)
    (h : SelectedBy 0xF000 (fmtXYN f 0 0 0) fun w => c (xField w) (yField w) (nField w)) (x y : RegIx) (n : Height) :
    decodeWord (fmtXYN f x y (nibble n)) = c x y n := by
  simp only [h _ (fmtXYN_row f x y (nibble n)), xField_fmtXYN, yField_fmtXYN, nField_fmtXYN]

theorem decodeWord_fmtX (f : BitVec 4) (b : Byte) (c : RegIx → Instr)
    (h : SelectedBy 0xF0FF (fmtX f 0 b) fun w => c (xField w)) (x : RegIx) : decodeWord (fmtX f x b) = c x := by
  simp only [h _ (fmtX_row f x b), xField_fmtX]

theorem decodeWord_of_unrecognized {w : Word} (h : unrecognizedWord w = true) : decodeWord w = .unrec w :=
  decodeWord_of_noRow ((unrecognizedWord_iff_noRow w).1 h)

theorem decodeWord_encode {i : Instr} (hwf : i.wf = true) : decodeWord (encode i) = i := by
  cases i with
  | cls => exact selectedBy_row 0 (by decide) _ rfl
  | ret => exact selectedBy_row 1 (by decide) _ rfl
  | jp nnn => exact decodeWord_fmtNNN 0x1 .jp (selectedBy_row 2 (by decide)) nnn
  | call nnn => exact decodeWord_fmtNNN 0x2 .call (selectedBy_row 3 (by decide)) nnn
  | seImm x nn => exact decodeWord_fmtXNN 0x3 .seImm (selectedBy_row 4 (by decide)) x nn
  | sneImm x nn => exact decodeWord_fmtXNN 0x4 .sneImm (selectedBy_row 5 (by decide)) x nn
  | seReg x y => exact decodeWord_fmtXY 0x5 0x0 .seReg (selectedBy_row 6 (by decide)) x y
  | ldImm x nn => exact decodeWord_fmtXNN 0x6 .ldImm (selectedBy_row 7 (by decide)) x nn
  | addImm x nn => exact decodeWord_fmtXNN 0x7 .addImm (selectedBy_row 8 (by decide)) x nn
  | ldReg x y => exact decodeWord_fmtXY 0x8 0x0 .ldReg (selectedBy_row 9 (by decide)) x y
  | orReg x y => exact decodeWord_fmtXY 0x8 0x1 .orReg (selectedBy_row 10 (by decide)) x y
  | andReg x y => exact decodeWord_fmtXY 0x8 0x2 .andReg (selectedBy_row 11 (by decide)) x y
  | xorReg x y => exact decodeWord_fmtXY 0x8 0x3 .xorReg (selectedBy_row 12 (by decide)) x y
  | addReg x y => exact decodeWord_fmtXY 0x8 0x4 .addReg (selectedBy_row 13 (by decide)) x y
  | sub x y => exact decodeWord_fmtXY 0x8 0x5 .sub (selectedBy_row 14 (by decide)) x y
  | shr x y => exact decodeWord_fmtXY 0x8 0x6 .shr (selectedBy_row 15 (by decide)) x y
  | subn x y => exact decodeWord_fmtXY 0x8 0x7 .subn (selectedBy_row 16 (by decide)) x y
  | shl x y => exact decodeWord_fmtXY 0x8 0xE .shl (selectedBy_row 17 (by decide)) x y
  | sneReg x y => exact decodeWord_fmtXY 0x9 0x0 .sneReg (selectedBy_row 18 (by decide)) x y
  | ldI nnn => exact decodeWord_fmtNNN 0xA .ldI (selectedBy_row 19 (by decide)) nnn
  | jpV0 nnn => exact decodeWord_fmtNNN 0xB .jpV0 (selectedBy_row 20 (by decide)) nnn
  | rnd x nn => exact decodeWord_fmtXNN 0xC .rnd (selectedBy_row 21 (by decide)) x nn
  | drw x y n => exact decodeWord_fmtXYN 0xD .drw (selectedBy_row 22 (by decide)) x y n
  | skp x => exact decodeWord_fmtX 0xE 0x9E .skp (selectedBy_row 23 (by decide)) x
  | sknp x => exact decodeWord_fmtX 0xE 0xA1 .sknp (selectedBy_row 24 (by decide)) x
  | ldVxDt x => exact decodeWord_fmtX 0xF 0x07 .ldVxDt (selectedBy_row 25 (by decide)) x
  | ldVxK x => exact decodeWord_fmtX 0xF 0x0A .ldVxK (selectedBy_row 26 (by decide)) x
  | ldDtVx x => exact decodeWord_fmtX 0xF 0x15 .ldDtVx (selectedBy_row 27 (by decide)) x
  | ldStVx x => exact decodeWord_fmtX 0xF 0x18 .ldStVx (selectedBy_row 28 (by decide)) x
  | addI x => exact decodeWord_fmtX 0xF 0x1E .addI (selectedBy_row 29 (by decide)) x
  | ldF x => exact decodeWord_fmtX 0xF 0x29 .ldF (selectedBy_row 30 (by decide)) x
  | ldB x => exact decodeWord_fmtX 0xF 0x33 .ldB (selectedBy_row 31 (by decide)) x
  | ldMemVx x => exact decodeWord_fmtX 0xF 0x55 .ldMemVx (selectedBy_row 32 (by decide)) x
  | ldVxMem x => exact decodeWord_fmtX 0xF 0x65 .ldVxMem (selectedBy_row 33 (by decide)) x
  | unrec op => exact decodeWord_of_unrecognized hwf

/-- Settles O3: by the instructions, each read back by the row of its format; the bytes of a word are fetched as that word. -/
theorem decodeOfEncode : Obligations.DecodeOfEncode := by
  intro i rest hwf
  have hword := decodeWord_encode hwf
  exact ⟨hword, by rw [encodeBytes, decodeBytes_bytesOfWord, hword]⟩

/-! ### From a word to its instruction and back: the fields of a word that a row selects fill the row's format again -/

/-- What the row builds from a word it selects is well formed and encodes to that word. -/
def OpcodeRow.Inverts (r : OpcodeRow) : Prop :=
  ∀ w, r.selects w = true → (r.build w).wf = true ∧ encode (r.build w) = w

/-- A row of a format inverts if its constructor is encoded by the format with the fields of the word. -/
theorem OpcodeRow.inverts_of_format {r : OpcodeRow} (hwf : ∀ w, (r.build w).wf = true)
    (hfmt : ∀ w, r.selects w = true → (encode (r.build w)).toNat = w.toNat) : r.Inverts :=
  fun w hw => ⟨hwf w, BitVec.eq_of_toNat_eq (hfmt w hw)⟩

theorem inverts_NNN (f : BitVec 4) (c : Addr12 → Instr) (hwf : ∀ nnn, (c nnn).wf = true := by intros; rfl)
    (henc : ∀ nnn, encode (c nnn) = fmtNNN f nnn := by intros; rfl) :
    OpcodeRow.Inverts ⟨0xF000, fmtNNN f 0, fun w => c (nnnField w)⟩ := by
  refine OpcodeRow.inverts_of_format (fun w => hwf _) fun w hw => ?_
  have hsel := (selects_F000 _ _ _).1 hw
  simp only [fmtNNN_toNat, BitVec.ofNat_eq_ofNat, BitVec.toNat_ofNat] at hsel
  rw [henc, fmtNNN_toNat, nnnField_toNat]
  omega

theorem inverts_XNN (f : BitVec 4) (c : RegIx → Byte → Instr) (hwf : ∀ x nn, (c x nn).wf = true := by intros; rfl)
    (henc : ∀ x nn, encode (c x nn) = fmtXNN f x nn := by intros; rfl) :
    OpcodeRow.Inverts ⟨0xF000, fmtXNN f 0 0, fun w => c (xField w) (nnField w)⟩ := by
  refine OpcodeRow.inverts_of_format (fun w => hwf _ _) fun w hw => ?_
  have hsel := (selects_F000 _ _ _).1 hw
  simp only [fmtXNN_toNat, Fin.val_zero, BitVec.ofNat_eq_ofNat, BitVec.toNat_ofNat] at hsel
  rw [henc, fmtXNN_toNat, xField_val, nnField_toNat]
  omega

theorem inverts_XY (f n : BitVec 4) (c : RegIx → RegIx → Instr) (hwf : ∀ x y, (c x y).wf = true := by intros; rfl)
    (henc : ∀ x y, encode (c x y) = fmtXYN f x y n := by intros; rfl) :
    OpcodeRow.Inverts ⟨0xF00F, fmtXYN f 0 0 n, fun w => c (xField w) (yField w)⟩ := by
  refine OpcodeRow.inverts_of_format (fun w => hwf _ _) fun w hw => ?_
  have hsel := (selects_F00F _ _ _).1 hw
  simp only [fmtXYN_toNat, Fin.val_zero] at hsel
  rw [henc, fmtXYN_toNat, xField_val, yField_val]
  omega

theorem inverts_XYN (f : BitVec 4) (c : RegIx → RegIx → Height → Instr)
    (hwf : ∀ x y n, (c x y n).wf = true := by intros; rfl)
    (henc : ∀ x y n, encode (c x y n) = fmtXYN f x y (nibble n) := by intros; rfl) :
    OpcodeRow.Inverts ⟨0xF000, fmtXYN f 0 0 0, fun w => c (xField w) (yField w) (nField w)⟩ := by
  refine OpcodeRow.inverts_of_format (fun w => hwf _ _ _) fun w hw => ?_
  have hsel := (selects_F000 _ _ _).1 hw
  simp only [fmtXYN_toNat, Fin.val_zero, BitVec.ofNat_eq_ofNat, BitVec.toNat_ofNat] at hsel
  rw [henc, fmtXYN_toNat, xField_val, yField_val, nibble_toNat, nField_val]
  omega

theorem inverts_X (f : BitVec 4) (b : Byte) (c : RegIx → Instr) (hwf : ∀ x, (c x).wf = true := by intros; rfl)
    (henc : ∀ x, encode (c x) = fmtX f x b := by intros; rfl) :
    OpcodeRow.Inverts ⟨0xF0FF, fmtX f 0 b, fun w => c (xField w)⟩ := by
  refine OpcodeRow.inverts_of_format (fun w => hwf _) fun w hw => ?_
  have hsel := (selects_F0FF _ _ _).1 hw
  simp only [fmtX_toNat, Fin.val_zero] at hsel
  rw [henc, fmtX_toNat, xField_val]
  omega

theorem inverts_closed (i : Instr) (hwf : i.wf = true := by rfl) : OpcodeRow.Inverts ⟨0xFFFF, encode i, fun _ => i⟩ :=
  OpcodeRow.inverts_of_format (fun _ => hwf) fun _ hw => ((selects_FFFF _ _ _).1 hw).2.symm

theorem opcodeTable_inverts : ∀ r ∈ opcodeTable, r.Inverts := by
  simp only [opcodeTable, rowsZeroToSeven, rowsEight, rowsNineToD, rowsEAndF, List.forall_mem_append, List.forall_mem_cons,
    List.not_mem_nil, false_imp_iff, implies_true, and_true]
  refine ⟨⟨⟨?_, ?_⟩, ?_⟩, ?_⟩
  · exact ⟨inverts_closed .cls, inverts_closed .ret, inverts_NNN 0x1 .jp, inverts_NNN 0x2 .call, inverts_XNN 0x3 .seImm,
      inverts_XNN 0x4 .sneImm, inverts_XY 0x5 0x0 .seReg, inverts_XNN 0x6 .ldImm, inverts_XNN 0x7 .addImm⟩
  · exact ⟨inverts_XY 0x8 0x0 .ldReg, inverts_XY 0x8 0x1 .orReg, inverts_XY 0x8 0x2 .andReg, inverts_XY 0x8 0x3 .xorReg,
      inverts_XY 0x8 0x4 .addReg, inverts_XY 0x8 0x5 .sub, inverts_XY 0x8 0x6 .shr, inverts_XY 0x8 0x7 .subn,
      inverts_XY 0x8 0xE .shl⟩
  · exact ⟨inverts_XY 0x9 0x0 .sneReg, inverts_NNN 0xA .ldI, inverts_NNN 0xB .jpV0, inverts_XNN 0xC .rnd,
      inverts_XYN 0xD .drw⟩
  · exact ⟨inverts_X 0xE 0x9E .skp, inverts_X 0xE 0xA1 .sknp, inverts_X 0xF 0x07 .ldVxDt, inverts_X 0xF 0x0A .ldVxK,
      inverts_X 0xF 0x15 .ldDtVx, inverts_X 0xF 0x18 .ldStVx, inverts_X 0xF 0x1E .addI, inverts_X 0xF 0x29 .ldF,
      inverts_X 0xF 0x33 .ldB, inverts_X 0xF 0x55 .ldMemVx, inverts_X 0xF 0x65 .ldVxMem⟩

/-- Settles O4: a word that a row selects is the format of its own fields; any other word is kept whole. -/
theorem encodeOfDecode : Obligations.EncodeOfDecode := by
  intro w
  rcases decodeWord_cases w with ⟨r, hr, hsel, hdec⟩ | ⟨hnone, hdec⟩
  · rw [hdec]
    exact opcodeTable_inverts r hr w hsel
  · rw [hdec]
    exact ⟨(unrecognizedWord_iff_noRow w).2 hnone, rfl⟩

end Sys2Proof
end

section
/-! PROOFS. Calls, returns and the jumps without a stack (40_control_flow.md sections 2, 4 and 5), and the no-op: one equation per
outcome of 00EE and 2NNN, then nested chains of them. -/

namespace Sys2Proof.Machine

/-! ### 00EE (rule R101) -/

/-- The next state of a 00EE that pops slot `k`. -/
def State.returned (k : Fin 12) (s : State) : State := { s with pc := s.stack[k], sp := k.castSucc }

theorem keeps_returned (k : Fin 12) (s : State) : Keeps [.pc, .sp] s (s.returned k) := by
  intro p hp
  cases p <;> simp_all [Part.same, State.returned, State.readV, State.readMem]

theorem exec_ret_of_empty {s : State} (h : s.sp.val = 0) : exec .ret s = raise .stackUnderflow s := by
  rcases s.advance.pop_cases with ⟨_, hpop⟩ | ⟨_, _, hpos, _⟩
  · rw [exec, execRet, hpop]
  · exact absurd h hpos.ne'

theorem exec_ret_of_stacked {s : State} {k : Fin 12} (h : s.sp.val = k.val + 1) :
    exec .ret s = .next (s.returned k) := by
  rcases s.advance.pop_cases with ⟨hzero, _⟩ | ⟨hlt, hlt', _, hpop⟩
  · exact absurd (h.symm.trans hzero) (Nat.succ_ne_zero _)
  · have hslot : s.advance.sp.val - 1 = k.val := by rw [State.advance_sp, h]; rfl
    simp only [exec, execRet, hpop, hslot]
    rfl

/-- Settles O16: with an empty stack the pop fails; otherwise it gives the last slot, whose number is the new SP. -/
theorem retPopsReturnAddress : Obligations.RetPopsReturnAddress :=
  ⟨selectedBy_row 1 (by decide), fun _ hempty => faultsWith_of_raise (exec_ret_of_empty hempty),
    fun s k hk => ⟨s.returned k, exec_ret_of_stacked hk, rfl, rfl, keeps_returned k s⟩⟩

/-! ### 2NNN (rule R103) -/

/-- The next state of a 2NNN that pushes into slot `k`. -/
def State.called (k : Fin 12) (nnn : Addr12) (s : State) : State :=
  { s with pc := absoluteTarget nnn, stack := s.stack.set k (s.pc + 2), sp := k.succ }

theorem keeps_called (k : Fin 12) (nnn : Addr12) (s : State) : Keeps [.pc, .sp, .stack] s (s.called k nnn) := by
  intro p hp
  cases p <;> simp_all [Part.same, State.called, State.readV, State.readMem]

theorem State.called_sp (k : Fin 12) (nnn : Addr12) (s : State) : (s.called k nnn).sp.val = k.val + 1 := rfl

theorem State.stack_called_same (k : Fin 12) (nnn : Addr12) (s : State) : (s.called k nnn).stack[k] = s.pc + 2 := by
  simp [State.called]

theorem State.stack_called_other {j k : Fin 12} (hj : j ≠ k) (nnn : Addr12) (s : State) :
    (s.called k nnn).stack[j] = s.stack[j] := by
  have hne : k.val ≠ j.val := fun h => hj (Fin.ext h.symm)
  simp [State.called, hne]

theorem exec_call_of_full {s : State} (nnn : Addr12) (h : s.sp.val = 12) :
    exec (.call nnn) s = raise .stackOverflow s := by
  rcases s.advance.push_cases s.advance.pc with ⟨_, hpush⟩ | ⟨hlt, _⟩
  · rw [exec, execCall, hpush]
  · exact absurd h hlt.ne

theorem exec_call_of_room {s : State} {k : Fin 12} (nnn : Addr12) (h : s.sp.val = k.val) :
    exec (.call nnn) s = .next (s.called k nnn) := by
  rcases s.advance.push_cases s.advance.pc with ⟨hfull, _⟩ | ⟨_, hpush⟩
  · exact absurd (h.symm.trans hfull) k.isLt.ne
  · have hslot : s.advance.sp.val = k.val := h
    simp only [exec, execCall, hpush, hslot]
    rfl

/-- Settles O18: with twelve addresses stacked the push fails; otherwise it writes slot SP and no other one. -/
theorem callPushesAdvancedPc : Obligations.CallPushesAdvancedPc :=
  ⟨selectedBy_row 3 (by decide), fun s nnn =>
    ⟨fun hfull => faultsWith_of_raise (exec_call_of_full nnn hfull), fun k hk =>
      ⟨s.called k nnn, exec_call_of_room nnn hk, absoluteTarget_toNat nnn, rfl, State.stack_called_same k nnn s,
        fun _ hj => State.stack_called_other hj nnn s, keeps_called k nnn s⟩⟩⟩

/-! ### BNNN (rule R110) -/

theorem exec_jpV0 (nnn : Addr12) (s : State) :
    exec (.jpV0 nnn) s = .next (s.jumpTo (indexedTarget (s.readV 0) nnn)) := rfl

/-- Settles O21: the target is a sum of an 8-bit and a 12-bit number, which 16 bits hold whole. -/
theorem indexedJumpAddsV0 : Obligations.IndexedJumpAddsV0 :=
  ⟨selectedBy_row 20 (by decide), fun s nnn =>
    ⟨_, exec_jpV0 nnn s, indexedTarget_toNat (s.readV 0) nnn, keeps_jumpTo s _⟩⟩

/-! ### The no-op (30_encoding.md rule R78) -/

theorem exec_unrec (op : Word) (s : State) : exec (.unrec op) s = .next (s.jumpTo (s.pc + 2)) := rfl

theorem emitted_step_of_unrec {s : State} {op : Word} (hrun : s.run = .running) (hpc : s.pc.toNat ≤ 4094)
    (hdec : decodeWord s.fetchWord = .unrec op) : emitted .step s = [.unrec op s.pc] := by
  have hok : accessOk s.pc.toNat 2 = true := accessOk_iff.2 (.inr (by omega))
  simp only [emitted, hrun, hok, if_true, hdec, instrOutput]

/-- Settles O23: such a word only advances `pc`, and the event takes the word and its address from the state before it. -/
theorem unrecognizedIsNoOp : Obligations.UnrecognizedIsNoOp :=
  ⟨fun _ => decodeWord_of_noRow, decodeWord_of_unrecognized (by decide),
    fun s op => completes_of_exec_jumpTo (exec_unrec op s), fun _ _ => emitted_step_of_unrec⟩

/-! ### Nested calls (40_control_flow.md section 5) -/

theorem execAll_cons_of_next {i : Instr} {s t : State} (h : exec i s = .next t) (is : List Instr) :
    execAll (i :: is) s = execAll is t := by
  rw [execAll, h]

theorem execAll_append_of_next {is : List Instr} {s t : State} (h : execAll is s = .next t) (is' : List Instr) :
    execAll (is ++ is') s = execAll is' t := by
  induction is generalizing s with
  | nil => cases h; rfl
  | cons i is ih =>
    cases hi : exec i s with
    | next u =>
      rw [execAll_cons_of_next hi] at h
      rw [List.cons_append, execAll_cons_of_next hi, ih h]
    | fault | refused => rw [execAll, hi] at h; cases h

/-- What a chain of calls has done: each has pushed the address behind itself, the first into the slot that SP named. -/
structure CallsNested (s : State) (targets : List Addr12) (t : State) : Prop where
  sp : t.sp.val = s.sp.val + targets.length
  pushed : ∀ j : Fin 12, s.sp.val ≤ j.val → j.val < t.sp.val → t.stack[j] = callSite s targets (j.val - s.sp.val) + 2
  below : ∀ j : Fin 12, j.val < s.sp.val → t.stack[j] = s.stack[j]
  frame : Keeps [.pc, .sp, .stack] s t

theorem callsNested_nil (s : State) : CallsNested s [] s where
  sp := rfl
  pushed _ hle hlt := absurd hlt (Nat.not_lt.2 hle)
  below _ _ := rfl
  frame := keeps_refl _ s

/-- After the first call, the later ones stand where it and they jumped to. -/
theorem callSite_called (s : State) (k : Fin 12) (nnn : Addr12) (targets : List Addr12) (n : Nat) :
    callSite (s.called k nnn) targets n = callSite s (nnn :: targets) (n + 1) := by
  cases n <;> rfl

theorem callsNested_cons {s t : State} {k : Fin 12} (hk : s.sp.val = k.val) {nnn : Addr12} {targets : List Addr12}
    (h : CallsNested (s.called k nnn) targets t) : CallsNested s (nnn :: targets) t where
  sp := by
    rw [h.sp, State.called_sp, List.length_cons, hk]
    omega
  pushed j hle hlt := by
    by_cases hj : j = k
    · subst hj
      rw [h.below j (Nat.lt_succ_self j.val), State.stack_called_same, hk, Nat.sub_self]
      rfl
    · have hgt : k.val + 1 ≤ j.val := by omega
      rw [h.pushed j hgt hlt, callSite_called]
      have hslot : j.val - (k.val + 1) + 1 = j.val - s.sp.val := by omega
      exact congrArg (callSite s (nnn :: targets) · + 2) hslot
  below j hlt := by
    have hj : j.val < k.val := hk ▸ hlt
    rw [h.below j (Nat.lt_succ_of_lt hj), State.stack_called_other (Fin.ne_of_lt hj)]
  frame := keeps_trans (keeps_called k nnn s) h.frame

theorem execAll_calls {s : State} {targets : List Addr12} (hfit : s.sp.val + targets.length ≤ 12) :
    ∃ t, execAll (targets.map Instr.call) s = .next t ∧ CallsNested s targets t := by
  induction targets generalizing s with
  | nil => exact ⟨s, rfl, callsNested_nil s⟩
  | cons nnn targets ih =>
    rw [List.length_cons] at hfit
    obtain ⟨k, hk⟩ : ∃ k : Fin 12, s.sp.val = k.val := ⟨⟨s.sp.val, by omega⟩, rfl⟩
    obtain ⟨t, hall, hnest⟩ := ih (s := s.called k nnn) (by rw [State.called_sp]; omega)
    exact ⟨t, (execAll_cons_of_next (exec_call_of_room nnn hk) _).trans hall, callsNested_cons hk hnest⟩

/-- Of a chain of returns only the last decides where the machine goes on. -/
theorem execAll_rets {s : State} {k : Fin 12} {m : Nat} (h : s.sp.val = k.val + (m + 1)) :
    execAll (List.replicate (m + 1) .ret) s = .next (s.returned k) := by
  induction m generalizing s with
  | zero => exact execAll_cons_of_next (exec_ret_of_stacked h) []
  | succ m ih =>
    have hlast : k.val + (m + 1) < 12 := by have := s.sp.isLt; omega
    have hret : exec .ret s = .next (s.returned ⟨k.val + (m + 1), hlast⟩) := exec_ret_of_stacked h
    exact (execAll_cons_of_next hret _).trans (ih rfl)

/-- Settles O22: the m-th return pops the slot that the matching call pushed into, and no return writes a slot. -/
theorem nestedCallsReturnInOrder : Obligations.NestedCallsReturnInOrder := by
  intro s targets m hfit hpos hle
  obtain ⟨c, hcalls, hnest⟩ := execAll_calls hfit
  have hsp : c.sp.val = s.sp.val + targets.length := hnest.sp
  obtain ⟨k, hk⟩ : ∃ k : Fin 12, k.val = s.sp.val + (targets.length - m) := ⟨⟨_, by omega⟩, rfl⟩
  obtain ⟨n, rfl⟩ := Nat.exists_eq_succ_of_ne_zero hpos.ne'
  have hrets : execAll (List.replicate (n + 1) .ret) c = .next (c.returned k) := execAll_rets (by omega)
  have hpc : c.stack[k] = callSite s targets (targets.length - (n + 1)) + 2 := by
    rw [hnest.pushed k (by omega) (by omega), hk, Nat.add_sub_cancel_left]
  exact ⟨c.returned k, (execAll_append_of_next hcalls _).trans hrets, hpc, hk, hnest.below,
    keeps_trans hnest.frame (keeps_mono (keeps_returned k c) (by simp)),
    fun hempty => faultsWith_of_raise (exec_ret_of_empty hempty)⟩

end Sys2Proof.Machine
end

section
/-! PROOFS. Flags, logic, shifts and the random byte (41_alu.md sections 3 and 4): an instruction with a flag advances `pc` and
writes a register and then VF, so what it changes and keeps is said once, of `writeFlagged` after `advance`. -/

namespace Sys2Proof.Machine

/-! ### Frames one after the other -/

theorem keeps_seq {l l' : List Part} {s t u : State} (h : Keeps l s t) (h' : Keeps l' t u) : Keeps (l ++ l') s u :=
  keeps_trans (keeps_mono h fun _ => List.mem_append_left l') (keeps_mono h' fun _ => List.mem_append_right l)

/-! ### A register and its flag (rule R23) -/

theorem keeps_advance_writeFlagged (s : State) (x : RegIx) (r f : Byte) :
    Keeps [.pc, .v] s (s.advance.writeFlagged x r f) :=
  keeps_trans (keeps_advance_writeV s x r) (keeps_mono (keeps_writeV _ vf f) (by simp))

/-- What a claim asks of an instruction whose whole effect is to advance, write one register and then the flag. -/
theorem completes_of_exec_writeFlagged {i : Instr} {s : State} {x : RegIx} {r f : Byte}
    (h : exec i s = .next (s.advance.writeFlagged x r f)) :
    ∃ t, exec i s = .next t ∧ t.readV vf = f ∧ (x ≠ vf → t.readV x = r) ∧
      (∀ j, j ≠ x → j ≠ vf → t.readV j = s.readV j) ∧ t.pc = s.pc + 2 ∧ Keeps [.pc, .v] s t :=
  ⟨s.advance.writeFlagged x r f, h, State.readV_writeV_same _ vf f,
    fun hx => by rw [State.readV_writeFlagged, if_neg hx, if_pos rfl],
    fun j hjx hjf => by rw [State.readV_writeFlagged, if_neg hjf, if_neg hjx, State.readV_advance],
    rfl, keeps_advance_writeFlagged s x r f⟩

/-! ### 8XY4, 8XY5, 8XY7 (rules R126 to R128) -/

theorem exec_addReg (x y : RegIx) (s : State) : exec (.addReg x y) s =
    .next (s.advance.writeFlagged x (s.readV x + s.readV y) (carryFlag (s.readV x) (s.readV y))) := rfl

theorem exec_sub (x y : RegIx) (s : State) : exec (.sub x y) s =
    .next (s.advance.writeFlagged x (s.readV x - s.readV y) (noBorrowFlag (s.readV x) (s.readV y))) := rfl

theorem exec_subn (x y : RegIx) (s : State) : exec (.subn x y) s =
    .next (s.advance.writeFlagged x (s.readV y - s.readV x) (noBorrowFlag (s.readV y) (s.readV x))) := rfl

theorem carryFlag_toNat (a b : Byte) : (carryFlag a b).toNat = if a.toNat + b.toNat > 255 then 1 else 0 := by
  simp only [carryFlag, flagByte_toNat, decide_eq_true_eq]

theorem noBorrowFlag_toNat (a b : Byte) : (noBorrowFlag a b).toNat = if b.toNat ≤ a.toNat then 1 else 0 := by
  simp only [noBorrowFlag, flagByte_toNat, decide_eq_true_eq]

theorem byte_sub_toNat (a b : Byte) : (a - b).toNat = (a.toNat + 256 - b.toNat) % 256 := by
  have hb := b.isLt
  rw [BitVec.toNat_sub]
  omega

/-- Settles O26: the sum of two bytes is the sum modulo 256, and the flag is written after it. -/
theorem addWithCarryFlag : Obligations.AddWithCarryFlag := by
  refine ⟨selectedBy_row 13 (by decide), fun s x y => ?_⟩
  obtain ⟨t, hnext, hflag, hsum, hrest⟩ := completes_of_exec_writeFlagged (exec_addReg x y s)
  exact ⟨t, hnext, by rw [hflag, carryFlag_toNat], fun hx => by rw [hsum hx, BitVec.toNat_add], hrest⟩

/-- Settles O27: the difference of two bytes is the difference modulo 256; 8XY7 is 8XY5 with the operands exchanged. -/
theorem subtractionsWithNoBorrowFlag : Obligations.SubtractionsWithNoBorrowFlag := by
  refine ⟨selectedBy_row 14 (by decide), selectedBy_row 16 (by decide), fun s x y => ⟨?_, ?_⟩⟩
  · obtain ⟨t, hnext, hflag, hdiff, hrest⟩ := completes_of_exec_writeFlagged (exec_sub x y s)
    exact ⟨t, hnext, by rw [hflag, noBorrowFlag_toNat], fun hx => by rw [hdiff hx, byte_sub_toNat], hrest⟩
  · obtain ⟨t, hnext, hflag, hdiff, hrest⟩ := completes_of_exec_writeFlagged (exec_subn x y s)
    exact ⟨t, hnext, by rw [hflag, noBorrowFlag_toNat], fun hx => by rw [hdiff hx, byte_sub_toNat], hrest⟩

/-! ### 8XY6, 8XYE (rules R129, R131) -/

theorem exec_shr (x y : RegIx) (s : State) : exec (.shr x y) s =
    .next (s.advance.writeFlagged x (shiftSource x y s >>> 1) (lowBitOut (shiftSource x y s))) := rfl

theorem exec_shl (x y : RegIx) (s : State) : exec (.shl x y) s =
    .next (s.advance.writeFlagged x (shiftSource x y s <<< 1) (highBitOut (shiftSource x y s))) := rfl

theorem shiftSource_eq {s : State} {x y : RegIx} {b : Byte}
    (h : (s.cfg.shiftSrc = .vy ∧ b = s.readV y) ∨ (s.cfg.shiftSrc = .vx ∧ b = s.readV x)) : shiftSource x y s = b := by
  rcases h with ⟨hsrc, rfl⟩ | ⟨hsrc, rfl⟩ <;> simp only [shiftSource, hsrc]

theorem byte_shiftRight_one_toNat (b : Byte) : (b >>> 1).toNat = b.toNat / 2 := by
  rw [BitVec.toNat_ushiftRight, Nat.shiftRight_eq_div_pow, Nat.pow_one]

theorem byte_shiftLeft_one_toNat (b : Byte) : (b <<< 1).toNat = b.toNat * 2 % 256 := by
  rw [BitVec.toNat_shiftLeft, Nat.shiftLeft_eq, Nat.pow_one]

/-- Settles O28: by the source that `SHIFT_SRC` names, halved or doubled modulo 256; the bit lost is its last or first one. -/
theorem shiftsReportBitOut : Obligations.ShiftsReportBitOut := by
  refine ⟨selectedBy_row 15 (by decide), selectedBy_row 17 (by decide), fun s x y b hsource => ?_⟩
  have hb : shiftSource x y s = b := shiftSource_eq hsource
  constructor
  · obtain ⟨t, hnext, hflag, hresult, hrest⟩ := completes_of_exec_writeFlagged (exec_shr x y s)
    exact ⟨t, hnext, by rw [hflag, lowBitOut_toNat, hb],
      fun hx => by rw [hresult hx, byte_shiftRight_one_toNat, hb], hrest⟩
  · obtain ⟨t, hnext, hflag, hresult, hrest⟩ := completes_of_exec_writeFlagged (exec_shl x y s)
    exact ⟨t, hnext, by rw [hflag, highBitOut_toNat, hb],
      fun hx => by rw [hresult hx, byte_shiftLeft_one_toNat, hb], hrest⟩

/-! ### 8XY1, 8XY2, 8XY3 (rules R123 to R125) -/

theorem keeps_advance_writeLogic (s : State) (x : RegIx) (r : Byte) : Keeps [.pc, .v] s (s.advance.writeLogic x r) := by
  rw [State.writeLogic_eq]
  split
  · exact keeps_advance_writeFlagged s x r 0
  · exact keeps_advance_writeV s x r

/-- The three logic operations, each with its bitwise result. -/
theorem exec_logic {s : State} {x y : RegIx} {i : Instr} {r : Byte}
    (h : (i = .orReg x y ∧ r = s.readV x ||| s.readV y) ∨ (i = .andReg x y ∧ r = s.readV x &&& s.readV y) ∨
      (i = .xorReg x y ∧ r = s.readV x ^^^ s.readV y)) : exec i s = .next (s.advance.writeLogic x r) := by
  rcases h with ⟨rfl, rfl⟩ | ⟨rfl, rfl⟩ | ⟨rfl, rfl⟩ <;> rfl

/-- Settles O25: `LOGIC_VF` decides between one write and a write that the flag 0 follows. -/
theorem logicOperations : Obligations.LogicOperations := by
  refine ⟨selectedBy_row 10 (by decide), selectedBy_row 11 (by decide), selectedBy_row 12 (by decide),
    fun s x y i r hop => ⟨s.advance.writeLogic x r, exec_logic hop, fun hreset => ?_, fun hunaffected => ?_,
      State.writeLogic_pc _ x r, keeps_advance_writeLogic s x r⟩⟩
  · have hlogic : s.advance.writeLogic x r = s.advance.writeFlagged x r 0 := by
      rw [State.writeLogic_eq, State.advance_cfg, if_pos hreset]
    rw [hlogic]
    refine ⟨State.readV_writeV_same _ vf 0, fun hx => ?_, fun j hjx hjf => ?_⟩
    · rw [State.readV_writeFlagged, if_neg hx, if_pos rfl]
    · rw [State.readV_writeFlagged, if_neg hjf, if_neg hjx, State.readV_advance]
  · have hlogic : s.advance.writeLogic x r = s.advance.writeV x r := by
      rw [State.writeLogic_eq, State.advance_cfg, hunaffected, if_neg (by decide)]
    rw [hlogic]
    exact ⟨State.readV_writeV_same _ x r, fun _ hj => State.readV_writeV_other _ r hj⟩

/-! ### CXNN (rule R132) -/

theorem exec_rnd (x : RegIx) (nn : Byte) (s : State) :
    exec (.rnd x nn) s = .next (s.advance.drawn.writeV x (Config.randByte s.draws &&& nn)) := rfl

theorem keeps_drawn (s : State) : Keeps [.draws] s s.drawn := by
  intro p hp
  cases p <;> simp_all [Part.same]

theorem keeps_advance_drawn_writeV (s : State) (x : RegIx) (b : Byte) :
    Keeps [.pc, .v, .draws] s (s.advance.drawn.writeV x b) :=
  keeps_mono (keeps_seq (keeps_advance s) (keeps_seq (keeps_drawn _) (keeps_writeV _ x b))) (by simp)

/-- A byte under a mask has no bit outside the mask. -/
theorem and_and_not_eq_zero (b m : Byte) : b &&& m &&& ~~~m = 0 := by
  rw [BitVec.and_assoc, BitVec.and_not_self]
  exact BitVec.and_zero

/-- Settles O29: nothing is used of the draw, which the mask bounds whatever it is. -/
theorem randomByteMasked : Obligations.RandomByteMasked := by
  refine ⟨selectedBy_row 21 (by decide), fun s x nn => ?_⟩
  have hx := State.readV_writeV_same s.advance.drawn x (Config.randByte s.draws &&& nn)
  exact ⟨_, exec_rnd x nn s, hx, by rw [hx, and_and_not_eq_zero], rfl,
    fun _ hj => State.readV_writeV_other s.advance.drawn _ hj, rfl, keeps_advance_drawn_writeV s x _⟩

end Sys2Proof.Machine
end

section
/-! PROOFS. The index register, loads and stores (42_index_memory.md): one equation where the footprint fits and one where it does
not (20_memory.md rule R55), beside `exec_ldB_of_fits` and `exec_ldMemVx_of_fits`. -/

namespace Sys2Proof.Machine

/-! ### FX1E, FX29 (rules R141, R142) -/

theorem exec_addI (x : RegIx) (s : State) :
    exec (.addI x) s = .next (s.advance.setI (indexPlus s.i (s.readV x))) := rfl

theorem exec_ldF (x : RegIx) (s : State) : exec (.ldF x) s = .next (s.advance.setI (glyphAddress (s.readV x))) := rfl

/-- Settles O31: both only set `I`, one to a sum in 16 bits, the other to a product that 16 bits hold whole. -/
theorem indexAddAndGlyph : Obligations.IndexAddAndGlyph := by
  refine ⟨selectedBy_row 29 (by decide), selectedBy_row 30 (by decide), fun s x => ⟨?_, ?_⟩⟩
  · obtain ⟨t, hnext, hi, hrest⟩ := completes_of_exec_setI (exec_addI x s)
    exact ⟨t, hnext, by rw [hi, indexPlus_toNat], hrest⟩
  · obtain ⟨t, hnext, hi, hrest⟩ := completes_of_exec_setI (exec_ldF x s)
    exact ⟨t, hnext, by rw [hi, glyphAddress_toNat], hrest⟩

/-! ### Footprints (20_memory.md rules R55, R56) -/

theorem accessOk_eq_false {base n : Nat} (hn : n ≠ 0) (h : 4096 < base + n) : accessOk base n = false := by
  rw [Bool.eq_false_iff, ne_eq, accessOk_iff]
  omega

theorem exec_ldB_of_overrun {s : State} {x : RegIx} (h : 4095 < s.i.toNat + 2) :
    exec (.ldB x) s = raise .memOutOfRange s :=
  if_neg (by rw [accessOk_eq_false (by decide) (by omega)]; decide)

theorem exec_ldMemVx_of_overrun {s : State} {x : RegIx} (h : 4095 < s.i.toNat + x.val) :
    exec (.ldMemVx x) s = raise .memOutOfRange s :=
  if_neg (by rw [accessOk_eq_false (Nat.succ_ne_zero _) (by omega)]; decide)

theorem exec_ldVxMem_of_overrun {s : State} {x : RegIx} (h : 4095 < s.i.toNat + x.val) :
    exec (.ldVxMem x) s = raise .memOutOfRange s :=
  if_neg (by rw [accessOk_eq_false (Nat.succ_ne_zero _) (by omega)]; decide)

/-! ### Stores (rules R143, R144) -/

theorem keeps_storeBytes (s : State) (a : Nat) (bs : List Byte) : Keeps [.mem] s (s.storeBytes a bs) := by
  intro p hp
  cases p <;> simp_all [Part.same]

theorem keeps_storedDigits (s : State) (x : RegIx) : Keeps [.pc, .mem] s (s.storedDigits x) :=
  keeps_seq (keeps_advance s) (keeps_storeBytes _ _ _)

theorem keeps_storedRegs (s : State) (x : RegIx) : Keeps [.pc, .mem, .i] s (s.storedRegs x) :=
  keeps_seq (keeps_advance s) (keeps_seq (keeps_storeBytes _ _ _) (keeps_setI _ _))

/-- Settles O32: the store writes the three digits, each of which a byte holds whole, and reaches no other byte. -/
theorem storeDecimalDigits : Obligations.StoreDecimalDigits := by
  refine ⟨selectedBy_row 31 (by decide), fun s x hwf =>
    ⟨fun hover => faultsWith_of_raise (exec_ldB_of_overrun hover), fun hfit => ?_⟩⟩
  obtain ⟨hhundreds, htens, hones⟩ := decimalDigits_toNat (s.readV x)
  have hbyte (k : Nat) (hk : k < (decimalDigits (s.readV x)).length) :=
    congrArg BitVec.toNat (State.readMem_storedDigits_same hwf hfit hk)
  exact ⟨s.storedDigits x, exec_ldB_of_fits hfit, (hbyte 0 (by simp)).trans hhundreds, (hbyte 1 (by simp)).trans htens,
    (hbyte 2 (by simp)).trans hones, fun _ => State.readMem_storedDigits_other, rfl, keeps_storedDigits s x⟩

/-- Settles O33: the store writes the registers in order and reaches no other byte; a block that fits ends at 4096 at most. -/
theorem storeRegisterBlock : Obligations.StoreRegisterBlock := by
  refine ⟨selectedBy_row 32 (by decide), fun s x hwf =>
    ⟨fun hover => faultsWith_of_raise (exec_ldMemVx_of_overrun hover), fun hfit => ?_⟩⟩
  have hi : (s.storedRegs x).i.toNat = (s.i.toNat + x.val + 1) % 65536 := indexAfterBlock_toNat s.i x
  exact ⟨s.storedRegs x, exec_ldMemVx_of_fits hfit, fun _ => State.readMem_storedRegs_same hwf hfit,
    fun _ => State.readMem_storedRegs_other, hi, by rw [hi]; omega, rfl, keeps_storedRegs s x⟩

/-! ### FX65 (rule R145) -/

/-- The next state of an FX65 that fits into memory. -/
def State.loadedRegs (x : RegIx) (s : State) : State :=
  (s.advance.loadRegs (s.mem.readBytes s.i.toNat (x.val + 1))).setI (indexAfterBlock s.i x)

theorem exec_ldVxMem_of_fits {s : State} {x : RegIx} (hfit : s.i.toNat + x.val ≤ 4095) :
    exec (.ldVxMem x) s = .next (s.loadedRegs x) :=
  if_pos (accessOk_iff.2 (.inr (by omega)))

theorem State.readV_loadedRegs (s : State) (x j : RegIx) :
    (s.loadedRegs x).readV j = if j.val ≤ x.val then s.readMem (s.i.toNat + j.val) else s.readV j := by
  rw [State.loadedRegs, State.readV_setI, State.readV_loadRegs]
  simp only [Nat.lt_succ_iff]
  rfl

theorem State.readV_loadedRegs_within {s : State} {x j : RegIx} (hj : j.val ≤ x.val) :
    (s.loadedRegs x).readV j = s.readMem (s.i.toNat + j.val) := by
  rw [State.readV_loadedRegs, if_pos hj]

theorem State.readV_loadedRegs_above {s : State} {x j : RegIx} (hj : x.val < j.val) :
    (s.loadedRegs x).readV j = s.readV j := by
  rw [State.readV_loadedRegs, if_neg (Nat.not_le.2 hj)]

theorem keeps_loadRegs (s : State) (bs : List Byte) : Keeps [.v] s (s.loadRegs bs) := by
  intro p hp
  cases p <;> simp_all [Part.same]

theorem keeps_loadedRegs (s : State) (x : RegIx) : Keeps [.pc, .v, .i] s (s.loadedRegs x) :=
  keeps_seq (keeps_advance s) (keeps_seq (keeps_loadRegs _ _) (keeps_setI _ _))

/-- Settles O34: the load reads the bytes in order into the registers up to X and reaches no other one. -/
theorem loadRegisterBlock : Obligations.LoadRegisterBlock :=
  ⟨selectedBy_row 33 (by decide), fun s x =>
    ⟨fun hover => faultsWith_of_raise (exec_ldVxMem_of_overrun hover), fun hfit =>
      ⟨s.loadedRegs x, exec_ldVxMem_of_fits hfit, fun _ => State.readV_loadedRegs_within,
        fun _ => State.readV_loadedRegs_above, indexAfterBlock_toNat s.i x, rfl, keeps_loadedRegs s x⟩⟩⟩

/-- Settles O35: with the same `I` the load reads the bytes that the store wrote, and both advance `I` alike. -/
theorem storeThenLoadRestoresRegisters : Obligations.StoreThenLoadRestoresRegisters := by
  intro s x hwf hfit
  refine ⟨s.storedRegs x, exec_ldMemVx_of_fits hfit, fun u hmem hi => ?_⟩
  have hfit' : u.i.toNat + x.val ≤ 4095 := by rw [hi]; exact hfit
  refine ⟨u.loadedRegs x, exec_ldVxMem_of_fits hfit', fun j hj => ?_, fun _ => State.readV_loadedRegs_above,
    congrArg (indexAfterBlock · x) hi⟩
  rw [State.readV_loadedRegs_within hj, hi, hmem, State.readMem_storedRegs_same hwf hfit hj]

/-! ### DXYN (43_display.md rule R151) -/

theorem exec_drw_of_overrun {s : State} {x y : RegIx} {n : Height}
    (hdrawn : 0 < min n.val (32 - (s.readV y).toNat % 32))
    (hover : 4095 < s.i.toNat + min n.val (32 - (s.readV y).toNat % 32) - 1) :
    exec (.drw x y n) s = raise .memOutOfRange s :=
  if_neg (by rw [spriteRows, spriteRow, accessOk_eq_false hdrawn.ne' (by omega)]; decide)

theorem keeps_afterDraw (s : State) (x y : RegIx) (n : Height) : Keeps [.pc, .display, .v] s (s.afterDraw x y n) :=
  keeps_seq (keeps_advance_setDisplay s _) (keeps_writeV _ vf _)

/-- Settles O38: the draw adds the sprite bits to the display, and its flag is the collision. -/
theorem drawXorsSpriteAndReportsCollision : Obligations.DrawXorsSpriteAndReportsCollision := by
  refine ⟨selectedBy_row 22 (by decide), fun s x y n rows hrows => ?_⟩
  subst hrows
  refine ⟨fun hdrawn hover => faultsWith_of_raise (exec_drw_of_overrun hdrawn hover), fun hfit => ?_⟩
  have hnofault : faultCause (.drw x y n) s = .none := if_neg (by omega)
  exact ⟨s.afterDraw x y n, exec_drw_of_no_fault hnofault, fun r c _ _ => State.pixel_afterDraw s x y n r c,
    by rw [State.readV_vf_afterDraw]; exact (flagByte_eq_zero_or_one _).symm, State.afterDraw_collision s x y n,
    fun _ hj => State.readV_writeV_other _ _ hj, rfl, keeps_afterDraw s x y n⟩

end Sys2Proof.Machine
end

section
/-! PROOFS. Keypad and timers (44_keypad_timers.md): skips by a key, the timer moves, and the key wait, whose two outcomes are said
once each. -/

namespace Sys2Proof.Machine

/-! ### EX9E, EXA1 (rules R160, R161) -/

theorem exec_skp_of_key {s : State} {x : RegIx} (h : (s.readV x).toNat ≤ 15) : exec (.skp x) s =
    .next (s.jumpTo (if s.keypad.getLsbD (s.readV x).toNat = true then s.pc + 4 else s.pc + 2)) := by
  simp only [exec, execSkp, keyNamed_of_lt (Nat.lt_succ_of_le h), State.advance_skipIf, State.keyPressed]

theorem exec_sknp_of_key {s : State} {x : RegIx} (h : (s.readV x).toNat ≤ 15) : exec (.sknp x) s =
    .next (s.jumpTo (if s.keypad.getLsbD (s.readV x).toNat = true then s.pc + 2 else s.pc + 4)) := by
  simp only [exec, execSknp, keyNamed_of_lt (Nat.lt_succ_of_le h), State.advance_skipIf, State.keyPressed,
    Bool.not_eq_true', ← Bool.not_eq_true, ite_not]

theorem exec_skp_of_noKey {s : State} {x : RegIx} (h : 15 < (s.readV x).toNat) :
    exec (.skp x) s = raise .keyIndexOutOfRange s := by
  simp only [exec, execSkp, keyNamed_of_ge (Nat.not_lt.2 h)]

theorem exec_sknp_of_noKey {s : State} {x : RegIx} (h : 15 < (s.readV x).toNat) :
    exec (.sknp x) s = raise .keyIndexOutOfRange s := by
  simp only [exec, execSknp, keyNamed_of_ge (Nat.not_lt.2 h)]

/-- Settles O41: an index up to 15 names a key, by which both skips set `pc`; a greater one names none. -/
theorem keySkips : Obligations.KeySkips :=
  ⟨selectedBy_row 23 (by decide), selectedBy_row 24 (by decide), fun _ _ =>
    ⟨fun hnone => ⟨faultsWith_of_raise (exec_skp_of_noKey hnone), faultsWith_of_raise (exec_sknp_of_noKey hnone)⟩,
      fun hkey => ⟨completes_of_exec_jumpTo (exec_skp_of_key hkey), completes_of_exec_jumpTo (exec_sknp_of_key hkey)⟩⟩⟩

/-! ### FX07, FX15, FX18 (rules R162, R164, R165) -/

theorem exec_ldVxDt (x : RegIx) (s : State) : exec (.ldVxDt x) s = .next (s.advance.writeV x s.dt) := rfl

theorem exec_ldDtVx (x : RegIx) (s : State) : exec (.ldDtVx x) s = .next (s.advance.setDt (s.readV x)) := rfl

theorem exec_ldStVx (x : RegIx) (s : State) : exec (.ldStVx x) s = .next (s.advance.setSt (s.readV x)) := rfl

theorem keeps_setDt (s : State) (b : Byte) : Keeps [.dt] s (s.setDt b) := by
  intro p hp
  cases p <;> simp_all [Part.same]

theorem keeps_setSt (s : State) (b : Byte) : Keeps [.st] s (s.setSt b) := by
  intro p hp
  cases p <;> simp_all [Part.same]

/-- Settles O42: each is one write after the advance, and the tone is read from the new `ST`. -/
theorem timerMoves : Obligations.TimerMoves :=
  ⟨selectedBy_row 25 (by decide), selectedBy_row 27 (by decide), selectedBy_row 28 (by decide), fun s x =>
    ⟨completes_of_exec_writeV (exec_ldVxDt x s),
      ⟨_, exec_ldDtVx x s, State.setDt_dt _ _, rfl, keeps_seq (keeps_advance s) (keeps_setDt _ _)⟩,
      ⟨_, exec_ldStVx x s, State.setSt_st _ _, decide_eq_true_iff, rfl, keeps_seq (keeps_advance s) (keeps_setSt _ _)⟩⟩⟩

/-! ### FX0A (rule R163) -/

/-- A key rises when it is down now and was up at the last look. -/
theorem State.getLsbD_risingKeys (s : State) (k : KeyIx) : s.risingKeys.getLsbD k.val = true ↔
    s.keypad.getLsbD k.val = true ∧ s.keyPrev.getLsbD k.val = false := by
  simp [State.risingKeys]

/-- The machine waits on: it has not looked yet, or no key has risen since it last did. -/
def State.WaitsOn (s : State) : Prop :=
  s.wait = false ∨ ∀ k : KeyIx, ¬ (s.keypad.getLsbD k.val = true ∧ s.keyPrev.getLsbD k.val = false)

/-- The key that a wait takes: the least one that has risen. -/
def State.TakesKey (k : KeyIx) (s : State) : Prop :=
  s.wait = true ∧ leastKey s.risingKeys = some k

theorem State.leastKey_of_noRise {s : State}
    (h : ∀ k : KeyIx, ¬ (s.keypad.getLsbD k.val = true ∧ s.keyPrev.getLsbD k.val = false)) :
    leastKey s.risingKeys = none := by
  cases hk : leastKey s.risingKeys with
  | none => rfl
  | some k => exact absurd ((s.getLsbD_risingKeys k).1 (leastKey_eq_some.1 hk).1) (h k)

theorem State.waitsOn_or_takesKey (s : State) : s.WaitsOn ∨ ∃ k, s.TakesKey k := by
  cases hw : s.wait with
  | false => exact .inl (.inl hw)
  | true =>
    cases hk : leastKey s.risingKeys with
    | some k => exact .inr ⟨k, hw, hk⟩
    | none =>
      refine .inl (.inr fun k hrise => ?_)
      rw [← State.getLsbD_risingKeys, leastKey_eq_none.1 hk] at hrise
      simp at hrise

theorem exec_ldVxK_of_waitsOn {s : State} (x : RegIx) (h : s.WaitsOn) :
    exec (.ldVxK x) s = .next (s.lookAtKeys true) := by
  cases hw : s.wait with
  | false => simp only [exec, execLdVxK, hw]
  | true =>
    have hnone := State.leastKey_of_noRise (h.resolve_left (by simp [hw]))
    simp only [exec, execLdVxK, hw, hnone]

theorem exec_ldVxK_of_takesKey {s : State} {k : KeyIx} (x : RegIx) (h : s.TakesKey k) :
    exec (.ldVxK x) s = .next ((s.advance.lookAtKeys false).writeV x (BitVec.ofNat 8 k.val)) := by
  obtain ⟨hwait, hleast⟩ := h
  simp only [exec, execLdVxK, hwait, hleast]

theorem keeps_lookAtKeys (s : State) (w : Bool) : Keeps [.wait, .keyPrev] s (s.lookAtKeys w) := by
  intro p hp
  cases p <;> simp_all [Part.same]

theorem keeps_keyTaken (s : State) (x : RegIx) (b : Byte) :
    Keeps [.pc, .v, .wait, .keyPrev] s ((s.advance.lookAtKeys false).writeV x b) :=
  keeps_mono (keeps_seq (keeps_advance s) (keeps_seq (keeps_lookAtKeys _ false) (keeps_writeV _ x b))) (by simp)

/-- Settles O43: a wait looks at the keys, and takes the key that rose and below which none did. -/
theorem keyWait : Obligations.KeyWait := by
  refine ⟨selectedBy_row 26 (by decide), fun s x => ⟨fun hwaits => ?_, fun k hwait hdown hup hleast => ?_⟩⟩
  · exact ⟨_, exec_ldVxK_of_waitsOn x hwaits, State.lookAtKeys_wait _ _, State.lookAtKeys_keyPrev _ _,
      keeps_lookAtKeys s true⟩
  · have hlower (j : KeyIx) (hj : j < k) : s.risingKeys.getLsbD j.val = false :=
      Bool.eq_false_iff.2 fun hrise => hleast j hj ((s.getLsbD_risingKeys j).1 hrise)
    have htakes : s.TakesKey k := ⟨hwait, leastKey_eq_some.2 ⟨(s.getLsbD_risingKeys k).2 ⟨hdown, hup⟩, hlower⟩⟩
    refine ⟨_, exec_ldVxK_of_takesKey x htakes, ?_, fun _ hj => State.readV_writeV_other _ _ hj, rfl, rfl, rfl,
      keeps_keyTaken s x _⟩
    rw [State.readV_writeV_same, BitVec.toNat_ofNat]
    omega

end Sys2Proof.Machine
end

section
/-! PROOFS. Every instruction (40_control_flow.md rule R100, 60_exceptions.md rule R176): where it faults, and, where it does not,
that it completes and writes only its own elements. The claims about VF, `ST` and the display follow from the two. -/

namespace Sys2Proof.Machine

/-! ### Faults -/

/-- A cause that rests on one condition, raised when the condition holds. -/
theorem raises_of_condition {c : Prop} [Decidable c] {code : FaultCode} {r : Result} {s : State}
    (hraise : c → r = raise code s) (hcause : (if c then code else .none) ≠ .none) :
    r = raise (if c then code else .none) s := by
  by_cases hc : c
  · rw [if_pos hc, hraise hc]
  · exact absurd (if_neg hc) hcause

/-- What an instruction does in a state in which it has a cause to fault. -/
theorem exec_of_fault {i : Instr} {s : State} (h : faultCause i s ≠ .none) : exec i s = raise (faultCause i s) s := by
  cases i
  case call nnn => exact raises_of_condition (exec_call_of_full nnn) h
  case ret => exact raises_of_condition exec_ret_of_empty h
  case ldB x => exact raises_of_condition exec_ldB_of_overrun h
  case ldMemVx x => exact raises_of_condition exec_ldMemVx_of_overrun h
  case ldVxMem x => exact raises_of_condition exec_ldVxMem_of_overrun h
  case drw x y n => exact raises_of_condition (fun ⟨hdrawn, hover⟩ => exec_drw_of_overrun hdrawn hover) h
  case skp x => exact raises_of_condition exec_skp_of_noKey h
  case sknp x => exact raises_of_condition exec_sknp_of_noKey h
  all_goals exact absurd rfl h

/-- Settles O11: the fault entry of `exec_of_fault` is the state with `FAULT` and `RUN` written. -/
theorem faultEntryIsPrecise : Obligations.FaultEntryIsPrecise := fun _ s h =>
  (exec_of_fault h).trans (raise_eq _ s)

/-! ### Completion -/

/-- A cause that rests on one condition is absent when the condition fails. -/
theorem not_condition_of_no_fault {c : Prop} [Decidable c] {code : FaultCode} (hcode : code ≠ .none)
    (h : (if c then code else .none) = .none) : ¬ c :=
  fun hc => hcode ((if_pos hc).symm.trans h)

/-- The result is a next state that agrees with the state outside the list, memory also as data. -/
def CompletesIn (l : List Part) (s : State) (r : Result) : Prop :=
  ∃ t, r = .next t ∧ Keeps l s t ∧ (.mem ∉ l → t.mem = s.mem)

theorem completesIn_of_next {l : List Part} {s t : State} {r : Result} (hnext : r = .next t) (hkeeps : Keeps l s t)
    (hmem : t.mem = s.mem) : CompletesIn l s r :=
  ⟨t, hnext, hkeeps, fun _ => hmem⟩

theorem completesIn_of_jumpTo {s : State} {w : Word} {r : Result} (h : r = .next (s.jumpTo w)) : CompletesIn [.pc] s r :=
  completesIn_of_next h (keeps_jumpTo s w) rfl

theorem completesIn_of_writeV {s : State} {x : RegIx} {b : Byte} {r : Result} (h : r = .next (s.advance.writeV x b)) :
    CompletesIn [.pc, .v] s r :=
  completesIn_of_next h (keeps_advance_writeV s x b) rfl

theorem completesIn_of_writeFlagged {s : State} {x : RegIx} {b f : Byte} {r : Result}
    (h : r = .next (s.advance.writeFlagged x b f)) : CompletesIn [.pc, .v] s r :=
  completesIn_of_next h (keeps_advance_writeFlagged s x b f) rfl

theorem completesIn_of_writeLogic {s : State} {x : RegIx} {b : Byte} {r : Result}
    (h : r = .next (s.advance.writeLogic x b)) : CompletesIn [.pc, .v] s r :=
  completesIn_of_next h (keeps_advance_writeLogic s x b) (State.writeLogic_mem _ x b)

theorem completesIn_of_setI {s : State} {w : Word} {r : Result} (h : r = .next (s.advance.setI w)) :
    CompletesIn [.pc, .i] s r :=
  completesIn_of_next h (keeps_advance_setI s w) rfl

theorem completesIn_of_store {l : List Part} {s t : State} {r : Result} (hin : .mem ∈ l) (hnext : r = .next t)
    (hkeeps : Keeps l s t) : CompletesIn l s r :=
  ⟨t, hnext, hkeeps, fun hmem => absurd hin hmem⟩

theorem exec_ret_of_no_fault {s : State} (h : faultCause .ret s = .none) :
    ∃ k : Fin 12, s.sp.val = k.val + 1 ∧ exec .ret s = .next (s.returned k) := by
  obtain ⟨n, hn⟩ := Nat.exists_eq_succ_of_ne_zero (not_condition_of_no_fault (by decide) h)
  have hlt : n < 12 := by have := s.sp.isLt; omega
  exact ⟨⟨n, hlt⟩, hn, exec_ret_of_stacked hn⟩

theorem exec_call_of_no_fault {s : State} {nnn : Addr12} (h : faultCause (.call nnn) s = .none) :
    ∃ k : Fin 12, s.sp.val = k.val ∧ exec (.call nnn) s = .next (s.called k nnn) := by
  have hlt : s.sp.val < 12 := lt_of_le_of_ne (Nat.le_of_lt_succ s.sp.isLt) (not_condition_of_no_fault (by decide) h)
  exact ⟨⟨s.sp.val, hlt⟩, rfl, exec_call_of_room nnn rfl⟩

theorem exec_skp_of_no_fault {s : State} {x : RegIx} (h : faultCause (.skp x) s = .none) : exec (.skp x) s =
    .next (s.jumpTo (if s.keypad.getLsbD (s.readV x).toNat = true then s.pc + 4 else s.pc + 2)) :=
  exec_skp_of_key (Nat.not_lt.1 (not_condition_of_no_fault (by decide) h))

theorem exec_sknp_of_no_fault {s : State} {x : RegIx} (h : faultCause (.sknp x) s = .none) : exec (.sknp x) s =
    .next (s.jumpTo (if s.keypad.getLsbD (s.readV x).toNat = true then s.pc + 2 else s.pc + 4)) :=
  exec_sknp_of_key (Nat.not_lt.1 (not_condition_of_no_fault (by decide) h))

theorem ldB_fits_of_no_fault {s : State} {x : RegIx} (h : faultCause (.ldB x) s = .none) : s.i.toNat + 2 ≤ 4095 :=
  Nat.not_lt.1 (not_condition_of_no_fault (by decide) h)

theorem ldMemVx_fits_of_no_fault {s : State} {x : RegIx} (h : faultCause (.ldMemVx x) s = .none) :
    s.i.toNat + x.val ≤ 4095 :=
  Nat.not_lt.1 (not_condition_of_no_fault (by decide) h)

theorem exec_ldB_of_no_fault {s : State} {x : RegIx} (h : faultCause (.ldB x) s = .none) :
    exec (.ldB x) s = .next (s.storedDigits x) :=
  exec_ldB_of_fits (ldB_fits_of_no_fault h)

theorem exec_ldMemVx_of_no_fault {s : State} {x : RegIx} (h : faultCause (.ldMemVx x) s = .none) :
    exec (.ldMemVx x) s = .next (s.storedRegs x) :=
  exec_ldMemVx_of_fits (ldMemVx_fits_of_no_fault h)

theorem exec_ldVxMem_of_no_fault {s : State} {x : RegIx} (h : faultCause (.ldVxMem x) s = .none) :
    exec (.ldVxMem x) s = .next (s.loadedRegs x) :=
  exec_ldVxMem_of_fits (Nat.not_lt.1 (not_condition_of_no_fault (by decide) h))

theorem exec_ret_completes {s : State} (h : faultCause .ret s = .none) : CompletesIn [.pc, .sp] s (exec .ret s) := by
  obtain ⟨k, _, hnext⟩ := exec_ret_of_no_fault h
  exact completesIn_of_next hnext (keeps_returned k s) rfl

theorem exec_call_completes {s : State} {nnn : Addr12} (h : faultCause (.call nnn) s = .none) :
    CompletesIn [.pc, .sp, .stack] s (exec (.call nnn) s) := by
  obtain ⟨k, _, hnext⟩ := exec_call_of_no_fault h
  exact completesIn_of_next hnext (keeps_called k nnn s) rfl

theorem exec_ldVxK_completes (s : State) (x : RegIx) :
    CompletesIn [.pc, .v, .wait, .keyPrev] s (exec (.ldVxK x) s) := by
  rcases s.waitsOn_or_takesKey with hwaits | ⟨k, htakes⟩
  · exact completesIn_of_next (exec_ldVxK_of_waitsOn x hwaits) (keeps_mono (keeps_lookAtKeys s true) (by simp)) rfl
  · exact completesIn_of_next (exec_ldVxK_of_takesKey x htakes) (keeps_keyTaken s x _) rfl

/-- What an instruction does in a state in which it has no cause to fault. -/
theorem exec_completes {i : Instr} {s : State} (h : faultCause i s = .none) :
    CompletesIn (writtenParts i) s (exec i s) := by
  cases i with
  | cls => exact completesIn_of_next (exec_cls s) (keeps_advance_setDisplay s _) rfl
  | ret => exact exec_ret_completes h
  | jp nnn => exact completesIn_of_jumpTo (exec_jp nnn s)
  | call nnn => exact exec_call_completes h
  | seImm x nn => exact completesIn_of_jumpTo (exec_seImm x nn s)
  | sneImm x nn => exact completesIn_of_jumpTo (exec_sneImm x nn s)
  | seReg x y => exact completesIn_of_jumpTo (exec_seReg x y s)
  | ldImm x nn => exact completesIn_of_writeV (exec_ldImm x nn s)
  | addImm x nn => exact completesIn_of_writeV (exec_addImm x nn s)
  | ldReg x y => exact completesIn_of_writeV (exec_ldReg x y s)
  | orReg x y => exact completesIn_of_writeLogic (exec_logic (.inl ⟨rfl, rfl⟩))
  | andReg x y => exact completesIn_of_writeLogic (exec_logic (.inr (.inl ⟨rfl, rfl⟩)))
  | xorReg x y => exact completesIn_of_writeLogic (exec_logic (.inr (.inr ⟨rfl, rfl⟩)))
  | addReg x y => exact completesIn_of_writeFlagged (exec_addReg x y s)
  | sub x y => exact completesIn_of_writeFlagged (exec_sub x y s)
  | shr x y => exact completesIn_of_writeFlagged (exec_shr x y s)
  | subn x y => exact completesIn_of_writeFlagged (exec_subn x y s)
  | shl x y => exact completesIn_of_writeFlagged (exec_shl x y s)
  | sneReg x y => exact completesIn_of_jumpTo (exec_sneReg x y s)
  | ldI nnn => exact completesIn_of_setI (exec_ldI nnn s)
  | jpV0 nnn => exact completesIn_of_jumpTo (exec_jpV0 nnn s)
  | rnd x nn => exact completesIn_of_next (exec_rnd x nn s) (keeps_advance_drawn_writeV s x _) rfl
  | drw x y n => exact completesIn_of_next (exec_drw_of_no_fault h) (keeps_afterDraw s x y n) rfl
  | skp x => exact completesIn_of_jumpTo (exec_skp_of_no_fault h)
  | sknp x => exact completesIn_of_jumpTo (exec_sknp_of_no_fault h)
  | ldVxDt x => exact completesIn_of_writeV (exec_ldVxDt x s)
  | ldVxK x => exact exec_ldVxK_completes s x
  | ldDtVx x => exact completesIn_of_next (exec_ldDtVx x s) (keeps_seq (keeps_advance s) (keeps_setDt _ _)) rfl
  | ldStVx x => exact completesIn_of_next (exec_ldStVx x s) (keeps_seq (keeps_advance s) (keeps_setSt _ _)) rfl
  | addI x => exact completesIn_of_setI (exec_addI x s)
  | ldF x => exact completesIn_of_setI (exec_ldF x s)
  | ldB x => exact completesIn_of_store (by simp [writtenParts]) (exec_ldB_of_no_fault h) (keeps_storedDigits s x)
  | ldMemVx x => exact completesIn_of_store (by simp [writtenParts]) (exec_ldMemVx_of_no_fault h) (keeps_storedRegs s x)
  | ldVxMem x => exact completesIn_of_next (exec_ldVxMem_of_no_fault h) (keeps_loadedRegs s x) rfl
  | unrec op => exact completesIn_of_jumpTo (exec_unrec op s)

/-- Settles O12: `exec_completes`, with memory read byte by byte. -/
theorem everyInstructionCompletesInFrame : Obligations.EveryInstructionCompletesInFrame := by
  intro i s h
  obtain ⟨t, hnext, hkeeps, _⟩ := exec_completes h
  exact ⟨t, hnext, hkeeps⟩

/-- Everything an instruction can do: fault entry with its cause, or a next state in its frame. -/
theorem exec_next_cases {i : Instr} {s t : State} (h : exec i s = .next t) :
    (faultCause i s ≠ .none ∧ t = s.halted (faultCause i s)) ∨
      (faultCause i s = .none ∧ Keeps (writtenParts i) s t ∧ (.mem ∉ writtenParts i → t.mem = s.mem)) := by
  by_cases hcause : faultCause i s = .none
  · obtain ⟨u, hnext, hframe⟩ := exec_completes hcause
    cases hnext.symm.trans h
    exact .inr ⟨hcause, hframe⟩
  · cases (exec_of_fault hcause).symm.trans h
    exact .inl ⟨hcause, rfl⟩

/-- Whether or not an instruction faults, it changes only the elements it may write and those of fault entry. -/
theorem exec_next_same {i : Instr} {s t : State} {p : Part} (h : exec i s = .next t) (hp : p ∉ writtenParts i)
    (hfault : p ∉ [Part.fault, Part.run]) : p.same s t := by
  rcases exec_next_cases h with ⟨_, rfl⟩ | ⟨_, hkeeps, _⟩
  · exact keeps_halted _ s p hfault
  · exact hkeeps p hp

theorem exec_total (i : Instr) (s : State) : ∃ t, exec i s = .next t := by
  rcases exec_faultsOrRunsOn i s with ⟨c, _, hraise⟩ | ⟨t, hnext, _, _⟩
  · exact ⟨s.halted c, hraise⟩
  · exact ⟨t, hnext⟩

/-! ### Who writes VF (10_state.md rule R23) -/

theorem readV_vf_of_writeV {i : Instr} {s s' t : State} {x : RegIx} {b : Byte} (hexec : exec i s = .next (s'.writeV x b))
    (hv : s'.v = s.v) (h : exec i s = .next t) (hx : decide (x = 15) = false) : t.readV vf = s.readV vf := by
  cases hexec.symm.trans h
  rw [State.readV_writeV_other _ _ (Ne.symm (of_decide_eq_false hx)), State.readV_congr hv]

theorem readV_vf_of_writeLogic {i : Instr} {s t : State} {x : RegIx} {b : Byte}
    (hexec : exec i s = .next (s.advance.writeLogic x b)) (h : exec i s = .next t)
    (hvf : (decide (s.cfg.logicVf = .reset) || decide (x = 15)) = false) : t.readV vf = s.readV vf := by
  cases hexec.symm.trans h
  obtain ⟨hcfg, hx⟩ := Bool.or_eq_false_iff.1 hvf
  rw [State.readV_writeLogic, if_neg fun hreset => of_decide_eq_false hcfg hreset.1,
    if_neg (Ne.symm (of_decide_eq_false hx)), State.readV_advance]

theorem exec_ldVxK_keeps_vf {s t : State} {x : RegIx} (h : exec (.ldVxK x) s = .next t) (hx : decide (x = 15) = false) :
    t.readV vf = s.readV vf := by
  rcases s.waitsOn_or_takesKey with hwaits | ⟨k, htakes⟩
  · cases (exec_ldVxK_of_waitsOn x hwaits).symm.trans h
    rfl
  · exact readV_vf_of_writeV (exec_ldVxK_of_takesKey x htakes) rfl h hx

theorem exec_ldVxMem_keeps_vf {s t : State} {x : RegIx} (h : exec (.ldVxMem x) s = .next t)
    (hx : decide (x = 15) = false) : t.readV vf = s.readV vf := by
  have habove : x.val < vf.val := Fin.lt_last_iff_ne_last.2 (of_decide_eq_false hx)
  by_cases hfit : s.i.toNat + x.val ≤ 4095
  · cases (exec_ldVxMem_of_fits hfit).symm.trans h
    exact State.readV_loadedRegs_above habove
  · cases (exec_ldVxMem_of_overrun (Nat.not_le.1 hfit)).symm.trans h
    rfl

/-- Settles O13: by the instructions; where registers are written, VF is not among them, and elsewhere none is written. -/
theorem vfWrittenOnlyWhereNamed : Obligations.VfWrittenOnlyWhereNamed := by
  intro i s t h hvf
  cases i
  case addReg | sub | shr | subn | shl | drw => cases hvf
  case ldImm x nn => exact readV_vf_of_writeV (exec_ldImm x nn s) rfl h hvf
  case addImm x nn => exact readV_vf_of_writeV (exec_addImm x nn s) rfl h hvf
  case ldReg x y => exact readV_vf_of_writeV (exec_ldReg x y s) rfl h hvf
  case rnd x nn => exact readV_vf_of_writeV (exec_rnd x nn s) rfl h hvf
  case ldVxDt x => exact readV_vf_of_writeV (exec_ldVxDt x s) rfl h hvf
  case orReg x y => exact readV_vf_of_writeLogic (exec_logic (.inl ⟨rfl, rfl⟩)) h hvf
  case andReg x y => exact readV_vf_of_writeLogic (exec_logic (.inr (.inl ⟨rfl, rfl⟩))) h hvf
  case xorReg x y => exact readV_vf_of_writeLogic (exec_logic (.inr (.inr ⟨rfl, rfl⟩))) h hvf
  case ldVxK x => exact exec_ldVxK_keeps_vf h hvf
  case ldVxMem x => exact exec_ldVxMem_keeps_vf h hvf
  all_goals exact exec_next_same (p := .v) h (by simp [writtenParts]) (by decide) vf

/-! ### Who reads `ST` and the display (10_state.md sections 1 and 5) -/

/-- The state with another `ST` and another display. -/
def State.unseen (b : Byte) (d : Display) (s : State) : State := { s with st := b, display := d }

theorem faultCause_unseen (i : Instr) (b : Byte) (d : Display) (s : State) :
    faultCause i (s.unseen b d) = faultCause i s := by
  cases i <;> rfl

theorem writeLogic_unseen (x : RegIx) (r : Byte) (b : Byte) (d : Display) (s : State) :
    (s.unseen b d).advance.writeLogic x r = (s.advance.writeLogic x r).unseen b d := by
  have hcfg : (s.unseen b d).advance.cfg = s.cfg := rfl
  rw [State.writeLogic_eq, State.writeLogic_eq, hcfg, State.advance_cfg]
  split <;> rfl

theorem unseen_of_next {i : Instr} {s t u : State} {b : Byte} {d : Display} (hexec : exec i s = .next u)
    (hother : exec i (s.unseen b d) = .next (u.unseen b d)) (h : exec i s = .next t) :
    exec i (s.unseen b d) = .next (t.unseen b d) := by
  cases hexec.symm.trans h
  exact hother

theorem exec_unseen_of_no_fault {i : Instr} {s t : State} (hcause : faultCause i s = .none) (h : exec i s = .next t)
    (hst : .st ∉ writtenParts i) (hdisplay : .display ∉ writtenParts i) (b : Byte) (d : Display) :
    exec i (s.unseen b d) = .next (t.unseen b d) := by
  have hcause' := (faultCause_unseen i b d s).trans hcause
  cases i
  case cls | drw => exact absurd (by simp [writtenParts]) hdisplay
  case ldStVx => exact absurd (by simp [writtenParts]) hst
  case ret =>
    obtain ⟨k, hk, hnext⟩ := exec_ret_of_no_fault hcause
    exact unseen_of_next hnext (exec_ret_of_stacked (s := s.unseen b d) hk) h
  case call nnn =>
    obtain ⟨k, hk, hnext⟩ := exec_call_of_no_fault hcause
    exact unseen_of_next hnext (exec_call_of_room (s := s.unseen b d) nnn hk) h
  case skp x => exact unseen_of_next (exec_skp_of_no_fault hcause) (exec_skp_of_no_fault hcause') h
  case sknp x => exact unseen_of_next (exec_sknp_of_no_fault hcause) (exec_sknp_of_no_fault hcause') h
  case ldB x => exact unseen_of_next (exec_ldB_of_no_fault hcause) (exec_ldB_of_no_fault hcause') h
  case ldMemVx x => exact unseen_of_next (exec_ldMemVx_of_no_fault hcause) (exec_ldMemVx_of_no_fault hcause') h
  case ldVxMem x => exact unseen_of_next (exec_ldVxMem_of_no_fault hcause) (exec_ldVxMem_of_no_fault hcause') h
  case ldVxK x =>
    rcases s.waitsOn_or_takesKey with hwaits | ⟨k, htakes⟩
    · exact unseen_of_next (exec_ldVxK_of_waitsOn x hwaits) (exec_ldVxK_of_waitsOn (s := s.unseen b d) x hwaits) h
    · exact unseen_of_next (exec_ldVxK_of_takesKey x htakes) (exec_ldVxK_of_takesKey (s := s.unseen b d) x htakes) h
  case orReg | andReg | xorReg => exact unseen_of_next rfl (congrArg Host.Outcome.next (writeLogic_unseen _ _ b d s)) h
  all_goals exact unseen_of_next rfl rfl h

/-- An instruction that writes neither `ST` nor the display carries both through. -/
theorem exec_unseen {i : Instr} {s t : State} (h : exec i s = .next t) (hst : .st ∉ writtenParts i)
    (hdisplay : .display ∉ writtenParts i) (b : Byte) (d : Display) : exec i (s.unseen b d) = .next (t.unseen b d) := by
  by_cases hcause : faultCause i s = .none
  · exact exec_unseen_of_no_fault hcause h hst hdisplay b d
  · have hsame := faultCause_unseen i b d s
    refine unseen_of_next (exec_of_fault hcause) ?_ h
    rw [exec_of_fault (hsame ▸ hcause), hsame]
    rfl

theorem exec_setSt_of_unwritten {i : Instr} {s t : State} (h : exec i s = .next t) (hst : .st ∉ writtenParts i)
    (hdisplay : .display ∉ writtenParts i) (b : Byte) : exec i (s.setSt b) = .next (t.setSt b) := by
  have hsame : t.display = s.display := exec_next_same (p := .display) h hdisplay (by decide)
  have hexec : exec i (s.setSt b) = .next (t.unseen b s.display) := exec_unseen h hst hdisplay b s.display
  rw [hexec, ← hsame]
  rfl

theorem exec_setDisplay_of_unwritten {i : Instr} {s t : State} (h : exec i s = .next t) (hst : .st ∉ writtenParts i)
    (hdisplay : .display ∉ writtenParts i) (d : Display) : exec i (s.setDisplay d) = .next (t.setDisplay d) := by
  have hsame : t.st = s.st := exec_next_same (p := .st) h hst (by decide)
  have hexec : exec i (s.setDisplay d) = .next (t.unseen s.st d) := exec_unseen h hst hdisplay s.st d
  rw [hexec, ← hsame]
  rfl

/-- Settles O14: `ST` is carried through, except by FX18, which writes it over. -/
theorem noInstructionReadsSt : Obligations.NoInstructionReadsSt := by
  intro i s b
  cases i
  case ldStVx x => exact ⟨_, _, exec_ldStVx x s, exec_ldStVx x (s.setSt b), keeps_refl _ _⟩
  case cls => exact ⟨_, _, exec_cls s, exec_cls (s.setSt b), keeps_setSt (s.advance.setDisplay blankDisplay) b⟩
  case drw x y n =>
    by_cases hcause : faultCause (.drw x y n) s = .none
    · exact ⟨_, _, exec_drw_of_no_fault hcause, exec_drw_of_no_fault (s := s.setSt b) hcause,
        keeps_setSt (s.afterDraw x y n) b⟩
    · exact ⟨_, _, exec_of_fault hcause, exec_of_fault (s := s.setSt b) hcause, keeps_setSt (s.halted _) b⟩
  all_goals
    obtain ⟨t, h⟩ := exec_total _ s
    exact ⟨t, _, h, exec_setSt_of_unwritten h (by simp [writtenParts]) (by simp [writtenParts]) b, keeps_setSt t b⟩

theorem keeps_afterDraw_setDisplay (s : State) (x y : RegIx) (n : Height) (d : Display) :
    Keeps [.display, .v] (s.afterDraw x y n) ((s.setDisplay d).afterDraw x y n) := by
  intro p hp
  cases p <;> simp_all [Part.same, State.afterDraw]

/-- Settles O15: the display is carried through, except by 00E0, which clears it, and by DXYN, which writes VF after it. -/
theorem displayReadOnlyThroughCollision : Obligations.DisplayReadOnlyThroughCollision := by
  intro i s d
  have hframe (t : State) : Keeps [.display, .v] t (t.setDisplay d) := keeps_mono (keeps_setDisplay t d) (by simp)
  cases i
  case cls =>
    exact ⟨_, _, exec_cls s, exec_cls (s.setDisplay d), keeps_refl _ _, fun _ _ => rfl, fun _ => rfl⟩
  case ldStVx x =>
    exact ⟨_, _, exec_ldStVx x s, exec_ldStVx x (s.setDisplay d), hframe (s.advance.setSt _), fun _ _ => rfl, fun _ => rfl⟩
  case drw x y n =>
    by_cases hcause : faultCause (.drw x y n) s = .none
    · exact ⟨_, _, exec_drw_of_no_fault hcause, exec_drw_of_no_fault (s := s.setDisplay d) hcause,
        keeps_afterDraw_setDisplay s x y n d,
        fun _ hj => (State.readV_writeV_other _ _ hj).trans (State.readV_writeV_other _ _ hj).symm,
        fun hother => absurd rfl (hother x y n)⟩
    · exact ⟨_, _, exec_of_fault hcause, exec_of_fault (s := s.setDisplay d) hcause, hframe (s.halted _), fun _ _ => rfl,
        fun _ => rfl⟩
  all_goals
    obtain ⟨t, h⟩ := exec_total _ s
    exact ⟨t, _, h, exec_setDisplay_of_unwritten h (by simp [writtenParts]) (by simp [writtenParts]) d, hframe t,
      fun _ _ => rfl, fun _ => rfl⟩

end Sys2Proof.Machine
end

section
/-! PROOFS. The actions of the agents (60_exceptions.md section 3) and the step that takes them (00_scope.md rule R6): an action
happens iff it is enabled, what each of the other agents changes, and that nothing changes once Halted. -/

namespace Sys2Proof.Machine

/-! ### Enabled actions complete (10_state.md rule R31) -/

theorem enabled_step_iff {r : RunState} : enabled r .step = true ↔ r = .running := by
  cases r <;> decide

theorem doStep_next_of_running {s : State} (hr : s.run = .running) : ∃ t, doStep s = .next t := by
  rcases doStep_cases s with ⟨hnot, _⟩ | ⟨_, _, e⟩ | ⟨_, _, e⟩
  · exact absurd hr hnot
  · exact ⟨s.halted .memOutOfRange, e⟩
  · rw [e]
    exact exec_total _ s

/-- Everything an action can do: happen, or stop the model by its name. -/
theorem act_next_or_notEnabled (a : Action) (s : State) :
    (∃ t, act a s = .next t) ∨ (enabled s.run a = false ∧ act a s = .fault (.notEnabled a)) := by
  cases a with
  | step =>
    rcases doStep_cases s with ⟨hnot, e⟩ | ⟨hr, _⟩ | ⟨hr, _⟩
    · exact .inr ⟨Bool.eq_false_iff.2 (mt enabled_step_iff.1 hnot), e⟩
    · exact .inl (doStep_next_of_running hr)
    · exact .inl (doStep_next_of_running hr)
  | tick =>
    rcases doTick_cases s with ⟨hr, e⟩ | ⟨_, e⟩
    · exact .inr ⟨by rw [hr]; rfl, e⟩
    · exact .inl ⟨_, e⟩
  | observe => exact .inl ⟨s, rfl⟩
  | input e =>
    cases e with
    | keyDown k =>
      rcases doKey_cases k true s with ⟨hr, e⟩ | ⟨_, e⟩
      · exact .inr ⟨by rw [hr]; rfl, e⟩
      · exact .inl ⟨_, e⟩
    | keyUp k =>
      rcases doKey_cases k false s with ⟨hr, e⟩ | ⟨_, e⟩
      · exact .inr ⟨by rw [hr]; rfl, e⟩
      · exact .inl ⟨_, e⟩
    | pauseToggle | quit => exact .inl ⟨_, rfl⟩

theorem act_of_enabled {a : Action} {s : State} (h : enabled s.run a = true) : ∃ t, act a s = .next t := by
  rcases act_next_or_notEnabled a s with hnext | ⟨hdisabled, _⟩
  · exact hnext
  · exact absurd h (Bool.eq_false_iff.1 hdisabled)

theorem act_of_disabled {a : Action} {s : State} (h : enabled s.run a = false) : act a s = .fault (.notEnabled a) := by
  rcases act_next_or_notEnabled a s with ⟨t, hnext⟩ | ⟨_, hstop⟩
  · exact absurd (enabled_of_act_next hnext) (Bool.eq_false_iff.1 h)
  · exact hstop

/-- Settles O9: an action happens or stops the model, and only an enabled one happens. -/
theorem enabledActionsComplete : Obligations.EnabledActionsComplete := fun _ _ =>
  ⟨act_of_enabled, act_of_disabled, enabled_step_iff, enabled_tick_iff⟩

/-! ### Halted and Paused -/

theorem State.setRun_self {s : State} {r : RunState} (h : s.run = r) : s.setRun r = s := by
  subst h; rfl

/-- What still happens once Halted leaves the state as it is. -/
theorem act_next_of_halted {a : Action} {s t : State} (hr : s.run = .halted) (h : act a s = .next t) : t = s := by
  have henabled := enabled_of_act_next h
  rw [hr] at henabled
  cases a with
  | step | tick => cases henabled
  | observe => cases h; rfl
  | input e =>
    cases e with
    | keyDown k | keyUp k => cases henabled
    | pauseToggle =>
      cases h
      rw [hr]
      exact State.setRun_self hr
    | quit => cases h; exact State.setRun_self hr

/-- Settles O10: once Halted what happens changes nothing but what taking it off the agenda changes; a `Step` needs Running. -/
theorem haltedNeverChanges : Obligations.HaltedNeverChanges := by
  refine ⟨fun s hr => ?_, fun s hr hnext => ?_⟩
  · rcases act_next_or_notEnabled s.nextAction s.popAgenda with ⟨t, h⟩ | ⟨_, hstop⟩
    · have hsame : t = s.popAgenda := act_next_of_halted (s.popAgenda_run.trans hr) h
      exact .inr ⟨t, h, hsame ▸ keeps_popAgenda s⟩
    · exact .inl hstop
  · have hdisabled : enabled s.popAgenda.run .step = false := by rw [State.popAgenda_run, hr]; rfl
    rw [step, hnext]
    exact act_of_disabled hdisabled

/-! ### `Tick` (rule R180) -/

theorem keeps_setDt_setSt (s : State) (a b : Byte) : Keeps [.dt, .st] s ((s.setDt a).setSt b) :=
  keeps_seq (keeps_setDt s a) (keeps_setSt _ b)

theorem emitted_tick {s : State} (h : s.run ≠ .halted) :
    emitted .tick s = [.toneReport (decide (0 < (countDown s.st).toNat))] := by
  unfold emitted
  cases hr : s.run with
  | running | paused => rfl
  | halted => exact absurd hr h

theorem emitted_tick_of_halted {s : State} (h : s.run = .halted) : emitted .tick s = [] := by
  unfold emitted
  rw [h]

/-- Settles O44: both timers count down, and the tone is reported from the `ST` after that. -/
theorem tickCountsDown : Obligations.TickCountsDown := by
  intro s
  rcases doTick_cases s with ⟨hr, e⟩ | ⟨hr, e⟩
  · exact ⟨fun hnot => absurd hr hnot, fun _ => ⟨e, emitted_tick_of_halted hr⟩⟩
  · exact ⟨fun _ => ⟨_, e, countDown_toNat s.dt, countDown_toNat s.st, keeps_setDt_setSt s _ _, emitted_tick hr⟩,
      fun hhalted => absurd hhalted hr⟩

/-! ### The input agent (rules R181, R182) -/

theorem keeps_setKeypad (s : State) (k : BitVec 16) : Keeps [.keypad] s (s.setKeypad k) := by
  intro p hp
  cases p <;> simp_all [Part.same]

theorem keeps_setRun (s : State) (r : RunState) : Keeps [.run] s (s.setRun r) := by
  intro p hp
  cases p <;> simp_all [Part.same]

/-- What a key event does while it is enabled. -/
theorem doKey_changes_one_key {s : State} (hr : s.run ≠ .halted) (k : KeyIx) (down : Bool) :
    ∃ t, doKey k down s = .next t ∧ t.keypad.getLsbD k.val = down ∧
      (∀ j : KeyIx, j ≠ k → t.keypad.getLsbD j.val = s.keypad.getLsbD j.val) ∧ Keeps [.keypad] s t := by
  rcases doKey_cases k down s with ⟨hhalted, _⟩ | ⟨_, e⟩
  · exact absurd hhalted hr
  · refine ⟨_, e, ?_, fun j hj => ?_, keeps_setKeypad s _⟩
    · rw [State.setKeypad_keypad, getLsbD_withKey, if_pos rfl]
    · rw [State.setKeypad_keypad, getLsbD_withKey, if_neg hj]

/-- Settles O45: `KeyDown` and `KeyUp` are one key event, with the key down or not. -/
theorem keyEventsChangeOneKey : Obligations.KeyEventsChangeOneKey := fun _ k hr =>
  ⟨doKey_changes_one_key hr k true, doKey_changes_one_key hr k false⟩

/-- Settles O46: both write `RUN` alone, `PauseToggle` by the table of `afterPauseToggle`. -/
theorem pauseAndQuitTable : Obligations.PauseAndQuitTable := fun s =>
  ⟨⟨s.setRun (afterPauseToggle s.run), rfl, keeps_setRun s _, congrArg afterPauseToggle, congrArg afterPauseToggle,
      congrArg afterPauseToggle⟩,
    ⟨s.setRun .halted, rfl, keeps_setRun s _, rfl⟩⟩

/-- Settles O47: an observation is the state itself, and its event carries the display. -/
theorem observationChangesNothing : Obligations.ObservationChangesNothing := fun _ => ⟨rfl, rfl⟩

/-- What the actions of the other agents may change. -/
theorem act_next_keeps_of_ne_step {a : Action} {s t : State} (ha : a ≠ .step) (h : act a s = .next t) :
    Keeps [.dt, .st, .keypad, .run] s t := by
  cases a with
  | step => exact absurd rfl ha
  | tick =>
    rcases doTick_cases s with ⟨_, e⟩ | ⟨_, e⟩ <;> cases e.symm.trans h
    exact keeps_mono (keeps_setDt_setSt s _ _) (by simp)
  | observe => cases h; exact keeps_refl _ s
  | input e =>
    cases e with
    | keyDown k =>
      rcases doKey_cases k true s with ⟨_, e⟩ | ⟨_, e⟩ <;> cases e.symm.trans h
      exact keeps_mono (keeps_setKeypad s _) (by simp)
    | keyUp k =>
      rcases doKey_cases k false s with ⟨_, e⟩ | ⟨_, e⟩ <;> cases e.symm.trans h
      exact keeps_mono (keeps_setKeypad s _) (by simp)
    | pauseToggle | quit => cases h; exact keeps_mono (keeps_setRun s _) (by simp)

/-! ### The step (rules R6, R100, R177) -/

theorem step_of_cons {s : State} {a : Action} {rest : List Action} (hd : s.schedule = none) (h : s.agenda = a :: rest) :
    step s = act a { s with agenda := rest } := by
  rw [step, State.nextAction_of_cons hd h, State.popAgenda_of_cons hd h]

theorem step_of_nil {s : State} (hd : s.schedule = none) (h : s.agenda = []) : step s = act .step s := by
  rw [step, State.nextAction_of_nil hd h, State.popAgenda_of_nil hd h]

theorem act_step_of_fetchable {s : State} (hr : s.run = .running) (hpc : s.pc.toNat ≤ 4094) :
    act .step s = exec (decodeWord s.fetchWord) s := by
  rcases doStep_cases s with ⟨hnot, _⟩ | ⟨_, hover, _⟩ | ⟨_, _, e⟩
  · exact absurd hr hnot
  · exact absurd hpc (Nat.not_le.2 hover)
  · exact e

theorem act_step_of_unfetchable {s : State} (hr : s.run = .running) (hpc : 4094 < s.pc.toNat) :
    act .step s = .next { s with fault := .memOutOfRange, run := .halted } := by
  rcases doStep_cases s with ⟨hnot, _⟩ | ⟨_, _, e⟩ | ⟨_, hfetch, _⟩
  · exact absurd hr hnot
  · exact e
  · exact absurd hfetch (Nat.not_le.2 hpc)

theorem decodeWord_fetchWord_of_decodeBytes {s : State} {i : Instr}
    (h : decodeBytes [s.readMem s.pc.toNat, s.readMem (s.pc.toNat + 1)] = .ok (i, [])) : decodeWord s.fetchWord = i :=
  congrArg Prod.fst (Except.ok.inj h)

/-- Settles O7: the agenda without a schedule is taken as it stands, and the word fetched is that of the two bytes at `pc`. -/
theorem stepRunsDecodedInstruction : Obligations.StepRunsDecodedInstruction := by
  refine ⟨fun _ _ _ => step_of_cons, fun _ => step_of_nil, fun s => ⟨rfl, keeps_popAgenda s⟩, fun s i hr hpc hbytes => ?_⟩
  have hexec : act .step s = exec i s :=
    decodeWord_fetchWord_of_decodeBytes hbytes ▸ act_step_of_fetchable hr hpc
  refine ⟨hexec, fun hd hagenda => (step_of_nil hd hagenda).trans hexec, fun rest hd hagenda => ?_⟩
  rw [step_of_cons hd hagenda, act_step_of_fetchable (s := { s with agenda := rest }) hr hpc]
  exact congrArg (exec · { s with agenda := rest }) (decodeWord_fetchWord_of_decodeBytes hbytes)

/-- Settles O8: the fetch check comes first and fails, whatever the agenda is. -/
theorem fetchBeyondMemoryFaults : Obligations.FetchBeyondMemoryFaults := by
  intro s hr hpc
  have hfault := act_step_of_unfetchable hr hpc
  refine ⟨hfault, fun hd hagenda => (step_of_nil hd hagenda).trans hfault, fun rest hd hagenda => ?_⟩
  rw [step_of_cons hd hagenda, act_step_of_unfetchable (s := { s with agenda := rest }) hr hpc]

end Sys2Proof.Machine
end

section
/-! PROOFS. Reset (10_state.md section 7) and the rules of the whole machine (10_state.md section 8): the invariant at launch and
under every action, sticky faults, fixed parameters, and who writes memory. -/

namespace Sys2Proof.Machine

/-! ### The launch state (70_reset_and_hazards.md rule R190) -/

theorem Memory.unlisted_beyond_font {a : Nat} (h : 80 ≤ a) : Memory.unlisted a = 0 :=
  List.getD_eq_default _ _ h

section Launch

variable {font rom : List Byte} (hfont : font.length = 80) (hrom : rom.length ≤ 3584)
include hfont

theorem fontMemory_wf : (Memory.writeBytes [] 0 font).wf = true :=
  Memory.writeBytes_wf (m := []) rfl font (by omega)

include hrom

theorem resetMemory_wf : (resetMemory font rom).wf = true :=
  Memory.writeBytes_wf (fontMemory_wf hfont) rom (by rw [entryPoint]; omega)

/-- What each byte is at launch (rule R36). -/
theorem read_resetMemory (a : Nat) : (resetMemory font rom).read a =
    if 512 ≤ a ∧ a < 512 + rom.length then rom.getD (a - 512) 0 else if a < 80 then font.getD a 0 else 0 := by
  have hempty : Memory.wf [] = true := rfl
  rw [resetMemory, Memory.read_writeBytes (fontMemory_wf hfont) rom (by rw [entryPoint]; omega)]
  rw [Memory.read_writeBytes hempty font (by omega)]
  refine if_congr Iff.rfl rfl ?_
  by_cases ha : a < 80
  · rw [if_pos (by omega), if_pos ha, Nat.sub_zero]
  · rw [if_neg (by omega), if_neg ha]
    exact Memory.unlisted_beyond_font (Nat.not_lt.1 ha)

end Launch

/-- The state after reset with a memory and parameters. -/
def State.launch (m : Memory) (cfg : Config) : State := { State.reset with mem := m, cfg := cfg }

theorem loader_of_fits {font rom : List Byte} (hfont : font.length = 80) (hrom : rom.length ≤ 3584) (cfg : Config) :
    loader cfg font rom = some (State.launch (resetMemory font rom) cfg) :=
  if_pos ⟨hfont, hrom⟩

theorem loader_of_tooLarge {rom : List Byte} (hrom : 3584 < rom.length) (cfg : Config) (font : List Byte) :
    loader cfg font rom = none :=
  if_neg fun ⟨_, hfits⟩ => absurd hfits (Nat.not_le.2 hrom)

theorem launch_inv {m : Memory} (hwf : m.wf = true) (cfg : Config) : (State.launch m cfg).Inv where
  memWf := hwf
  pcBound := show (0x200 : Word).toNat ≤ 0x10FE by decide
  stackBound j hj := absurd hj (Nat.not_lt_zero j.val)
  faultHalts hfault := absurd rfl hfault
  waiting hwait := nomatch hwait

theorem readV_launch (m : Memory) (cfg : Config) (x : RegIx) : (State.launch m cfg).readV x = 0 := by
  simp [State.launch, State.reset, State.readV]

theorem stack_launch (m : Memory) (cfg : Config) (j : Fin 12) : (State.launch m cfg).stack[j] = 0 := by
  simp [State.launch, State.reset]

/-- Settles O50: the bytes are those of `read_resetMemory`, and every other element is the one of the reset state. -/
theorem loaderGivesResetState : Obligations.LoaderGivesResetState := by
  refine fun cfg font rom hfont => ⟨fun hlarge => loader_of_tooLarge hlarge cfg font, fun hrom => ?_⟩
  have hread := read_resetMemory hfont hrom
  refine ⟨State.launch (resetMemory font rom) cfg, loader_of_fits hfont hrom cfg, fun a ha => ?_, fun a hlow hhigh => ?_,
    fun j hj => ?_, fun a hlow hhigh => ?_, pixel_blankDisplay, readV_launch _ cfg, rfl, rfl, stack_launch _ cfg, rfl, rfl,
    rfl, rfl, rfl, rfl, rfl, rfl, rfl, rfl, rfl, rfl, launch_inv (resetMemory_wf hfont hrom) cfg⟩
  · exact (hread a).trans (by rw [if_neg (by omega), if_pos ha])
  · exact (hread a).trans (by rw [if_neg (by omega), if_neg (by omega)])
  · exact (hread (512 + j)).trans (by rw [if_pos (by omega), Nat.add_sub_cancel_left])
  · exact (hread a).trans (by rw [if_neg (by omega), if_neg (by omega)])

/-- An unlisted address reads as the default font, so that storing this font lists nothing. -/
theorem resetMemory_defaultFont : resetMemory defaultFont [] = [] := by
  decide

/-- Settles O51: with the default font and no image, memory lists nothing. -/
theorem resetIsDefaultLaunch : Obligations.ResetIsDefaultLaunch := by
  rw [Obligations.ResetIsDefaultLaunch, loader_of_fits (by decide) (by decide), resetMemory_defaultFont]
  rfl

/-- Settles O52: the reset state is a launch state whose memory lists nothing. -/
theorem invariantAtReset : Obligations.InvariantAtReset := launch_inv (m := []) rfl Config.default

/-! ### Who writes what -/

theorem store_of_mem_written {i : Instr} (h : .mem ∈ writtenParts i) : ∃ x, i = .ldB x ∨ i = .ldMemVx x := by
  cases i
  case ldB x => exact ⟨x, .inl rfl⟩
  case ldMemVx x => exact ⟨x, .inr rfl⟩
  all_goals simp [writtenParts] at h

theorem keyWait_of_wait_written {i : Instr} (h : .wait ∈ writtenParts i) : ∃ x, i = .ldVxK x := by
  cases i
  case ldVxK x => exact ⟨x, rfl⟩
  all_goals simp [writtenParts] at h

theorem cfg_not_written (i : Instr) : .cfg ∉ writtenParts i := by
  cases i <;> simp [writtenParts]

/-! ### An instruction keeps the invariant (10_state.md rule R37) -/

theorem storedDigits_wf {s : State} {x : RegIx} (hwf : s.mem.wf = true) (hfit : s.i.toNat + 2 ≤ 4095) :
    (s.storedDigits x).mem.wf = true :=
  Memory.writeBytes_wf hwf _ (by rw [decimalDigits_length]; omega)

theorem storedRegs_wf {s : State} {x : RegIx} (hwf : s.mem.wf = true) (hfit : s.i.toNat + x.val ≤ 4095) :
    (s.storedRegs x).mem.wf = true :=
  Memory.writeBytes_wf hwf _ (by rw [State.regsThrough_length]; omega)

theorem exec_mem_wf {i : Instr} {s t : State} (hwf : s.mem.wf = true) (h : exec i s = .next t) : t.mem.wf = true := by
  rcases exec_next_cases h with ⟨_, rfl⟩ | ⟨hcause, _, hmem⟩
  · exact hwf
  · by_cases hstore : .mem ∈ writtenParts i
    · obtain ⟨x, rfl | rfl⟩ := store_of_mem_written hstore
      · cases (exec_ldB_of_no_fault hcause).symm.trans h
        exact storedDigits_wf hwf (ldB_fits_of_no_fault hcause)
      · cases (exec_ldMemVx_of_no_fault hcause).symm.trans h
        exact storedRegs_wf hwf (ldMemVx_fits_of_no_fault hcause)
    · rw [hmem hstore]
      exact hwf

section Bounds

variable {s t : State} (hpc : s.pc.toNat ≤ 4094)
include hpc

theorem pc_add_two_le : (s.pc + 2).toNat ≤ 0x10FE := by
  simp only [BitVec.toNat_add, BitVec.ofNat_eq_ofNat, BitVec.toNat_ofNat]
  omega

theorem pc_add_four_le : (s.pc + 4).toNat ≤ 0x10FE := by
  simp only [BitVec.toNat_add, BitVec.ofNat_eq_ofNat, BitVec.toNat_ofNat]
  omega

theorem pc_le_of_advance {i : Instr} {u : State} (hexec : exec i s = .next u) (hadvance : u.pc = s.pc + 2)
    (h : exec i s = .next t) : t.pc.toNat ≤ 0x10FE := by
  cases hexec.symm.trans h
  rw [hadvance]
  exact pc_add_two_le hpc

/-- A skip goes on behind the instruction or behind the next one. -/
theorem pc_le_of_skip {i : Instr} {c : Prop} [Decidable c] {a b : Word} (ha : a = s.pc + 2 ∨ a = s.pc + 4)
    (hb : b = s.pc + 2 ∨ b = s.pc + 4) (hexec : exec i s = .next (s.jumpTo (if c then a else b)))
    (h : exec i s = .next t) : t.pc.toNat ≤ 0x10FE := by
  cases hexec.symm.trans h
  have hle {w : Word} (hw : w = s.pc + 2 ∨ w = s.pc + 4) : w.toNat ≤ 0x10FE := by
    rcases hw with rfl | rfl
    · exact pc_add_two_le hpc
    · exact pc_add_four_le hpc
  rw [State.jumpTo_pc]
  split
  · exact hle ha
  · exact hle hb

/-- The greatest target is that of BNNN, 0xFFF + 0xFF. -/
theorem exec_pc_le {i : Instr} (hcause : faultCause i s = .none)
    (hstack : ∀ j : Fin 12, j.val < s.sp.val → s.stack[j].toNat ≤ 0x10FE) (h : exec i s = .next t) :
    t.pc.toNat ≤ 0x10FE := by
  cases i
  case jp nnn =>
    cases (exec_jp nnn s).symm.trans h
    exact (absoluteTarget_toNat nnn).trans_le (by omega)
  case jpV0 nnn =>
    cases (exec_jpV0 nnn s).symm.trans h
    exact (indexedTarget_toNat (s.readV 0) nnn).trans_le (by omega)
  case call nnn =>
    obtain ⟨k, _, hnext⟩ := exec_call_of_no_fault hcause
    cases hnext.symm.trans h
    exact (absoluteTarget_toNat nnn).trans_le (by omega)
  case ret =>
    obtain ⟨k, hk, hnext⟩ := exec_ret_of_no_fault hcause
    cases hnext.symm.trans h
    exact hstack k (by omega)
  case seImm x nn => exact pc_le_of_skip hpc (.inr rfl) (.inl rfl) (exec_seImm x nn s) h
  case sneImm x nn => exact pc_le_of_skip hpc (.inl rfl) (.inr rfl) (exec_sneImm x nn s) h
  case seReg x y => exact pc_le_of_skip hpc (.inr rfl) (.inl rfl) (exec_seReg x y s) h
  case sneReg x y => exact pc_le_of_skip hpc (.inl rfl) (.inr rfl) (exec_sneReg x y s) h
  case skp x => exact pc_le_of_skip hpc (.inr rfl) (.inl rfl) (exec_skp_of_no_fault hcause) h
  case sknp x => exact pc_le_of_skip hpc (.inl rfl) (.inr rfl) (exec_sknp_of_no_fault hcause) h
  case ldVxK x =>
    rcases s.waitsOn_or_takesKey with hwaits | ⟨k, htakes⟩
    · cases (exec_ldVxK_of_waitsOn x hwaits).symm.trans h
      exact hpc.trans (by decide)
    · exact pc_le_of_advance hpc (exec_ldVxK_of_takesKey x htakes) rfl h
  case drw x y n => exact pc_le_of_advance hpc (exec_drw_of_no_fault hcause) rfl h
  case ldB x => exact pc_le_of_advance hpc (exec_ldB_of_no_fault hcause) rfl h
  case ldMemVx x => exact pc_le_of_advance hpc (exec_ldMemVx_of_no_fault hcause) rfl h
  case ldVxMem x => exact pc_le_of_advance hpc (exec_ldVxMem_of_no_fault hcause) rfl h
  case orReg | andReg | xorReg => exact pc_le_of_advance hpc rfl (State.writeLogic_pc _ _ _) h
  all_goals exact pc_le_of_advance hpc rfl rfl h

theorem exec_stack_le {i : Instr} (hcause : faultCause i s = .none)
    (hstack : ∀ j : Fin 12, j.val < s.sp.val → s.stack[j].toNat ≤ 0x10FE) (h : exec i s = .next t) (j : Fin 12)
    (hj : j.val < t.sp.val) : t.stack[j].toNat ≤ 0x10FE := by
  cases i
  case ret =>
    obtain ⟨k, hk, hnext⟩ := exec_ret_of_no_fault hcause
    cases hnext.symm.trans h
    have hlt : j.val < k.val := hj
    exact hstack j (by omega)
  case call nnn =>
    obtain ⟨k, hk, hnext⟩ := exec_call_of_no_fault hcause
    cases hnext.symm.trans h
    by_cases hjk : j = k
    · subst hjk
      rw [State.stack_called_same]
      exact pc_add_two_le hpc
    · have hlt : j.val < k.val + 1 := hj
      rw [State.stack_called_other hjk]
      exact hstack j (by omega)
  all_goals
    have hsp : t.sp = s.sp := exec_next_same (p := .sp) h (by simp [writtenParts]) (by decide)
    have hsame : t.stack = s.stack := exec_next_same (p := .stack) h (by simp [writtenParts]) (by decide)
    rw [hsp] at hj
    simp only [hsame]
    exact hstack j hj

end Bounds

/-- A wait is set by FX0A alone, which leaves `pc` and memory as they are. -/
theorem exec_waiting {s t : State} (hpc : s.pc.toNat ≤ 4094) (hwaiting : s.wait = true → isKeyWait s.fetchWord)
    (h : exec (decodeWord s.fetchWord) s = .next t) (ht : t.wait = true) : t.pc.toNat ≤ 4094 ∧ isKeyWait t.fetchWord := by
  have hkey : isKeyWait s.fetchWord := by
    by_contra hnot
    have hsame : t.wait = s.wait :=
      exec_next_same (p := .wait) h (fun hwrites => hnot (keyWait_of_wait_written hwrites)) (by decide)
    exact hnot (hwaiting (hsame.symm.trans ht))
  obtain ⟨x, hx⟩ := hkey
  rw [hx] at h
  rcases s.waitsOn_or_takesKey with hwaits | ⟨k, htakes⟩
  · cases (exec_ldVxK_of_waitsOn x hwaits).symm.trans h
    exact ⟨hpc, x, hx⟩
  · cases (exec_ldVxK_of_takesKey x htakes).symm.trans h
    cases ht

/-! ### The invariant under every action -/

/-- The invariant speaks of few elements; the others may change. -/
theorem State.Inv.of_same {s t : State} (hinv : s.Inv) (hmem : t.mem = s.mem) (hpc : t.pc = s.pc) (hstack : t.stack = s.stack)
    (hsp : t.sp = s.sp) (hwait : t.wait = s.wait) (hfault : t.fault ≠ .none → t.run = .halted) : t.Inv where
  memWf := by rw [hmem]; exact hinv.memWf
  pcBound := by rw [hpc]; exact hinv.pcBound
  stackBound := by rw [hstack, hsp]; exact hinv.stackBound
  faultHalts := hfault
  waiting := by rw [hwait, hpc, State.fetchWord_congr hmem hpc]; exact hinv.waiting

theorem exec_keeps_inv {s t : State} (hinv : s.Inv) (hpc : s.pc.toNat ≤ 4094)
    (h : exec (decodeWord s.fetchWord) s = .next t) : t.Inv := by
  rcases exec_next_cases h with ⟨_, rfl⟩ | ⟨hcause, _, _⟩
  · exact hinv.of_same rfl rfl rfl rfl rfl fun _ => rfl
  · refine ⟨exec_mem_wf hinv.memWf h, exec_pc_le hpc hcause hinv.stackBound h, exec_stack_le hpc hcause hinv.stackBound h,
      fun hfault => ?_, exec_waiting hpc (fun hwait => (hinv.waiting hwait).2) h⟩
    rcases exec_faultsOrRunsOn (decodeWord s.fetchWord) s with ⟨c, _, hraise⟩ | ⟨u, hnext, hrun, hsame⟩
    · cases hraise.symm.trans h
      rfl
    · cases hnext.symm.trans h
      rw [hsame] at hfault
      exact hrun.trans (hinv.faultHalts hfault)

theorem doStep_keeps_inv {s t : State} (hinv : s.Inv) (h : doStep s = .next t) : t.Inv := by
  rcases doStep_cases s with ⟨_, e⟩ | ⟨_, _, e⟩ | ⟨_, hpc, e⟩
  · cases e.symm.trans h
  · cases e.symm.trans h
    exact hinv.of_same rfl rfl rfl rfl rfl fun _ => rfl
  · exact exec_keeps_inv hinv hpc (e.symm.trans h)

theorem act_keeps_inv {a : Action} {s t : State} (hinv : s.Inv) (h : act a s = .next t) : t.Inv := by
  cases a with
  | step => exact doStep_keeps_inv hinv h
  | tick =>
    rcases doTick_cases s with ⟨_, e⟩ | ⟨_, e⟩ <;> cases e.symm.trans h
    exact hinv.of_same rfl rfl rfl rfl rfl hinv.faultHalts
  | observe => cases h; exact hinv
  | input e =>
    cases e with
    | keyDown k =>
      rcases doKey_cases k true s with ⟨_, e⟩ | ⟨_, e⟩ <;> cases e.symm.trans h
      exact hinv.of_same rfl rfl rfl rfl rfl hinv.faultHalts
    | keyUp k =>
      rcases doKey_cases k false s with ⟨_, e⟩ | ⟨_, e⟩ <;> cases e.symm.trans h
      exact hinv.of_same rfl rfl rfl rfl rfl hinv.faultHalts
    | pauseToggle =>
      cases h
      exact hinv.of_same rfl rfl rfl rfl rfl fun hfault => congrArg afterPauseToggle (hinv.faultHalts hfault)
    | quit => cases h; exact hinv.of_same rfl rfl rfl rfl rfl fun _ => rfl

theorem popAgenda_inv {s : State} (hinv : s.Inv) : s.popAgenda.Inv :=
  hinv.of_same s.popAgenda_mem s.popAgenda_pc s.popAgenda_stack s.popAgenda_sp s.popAgenda_wait
    (by rw [State.popAgenda_fault, State.popAgenda_run]; exact hinv.faultHalts)

/-- Settles O53: taking an action off the agenda and every action keep the invariant. -/
theorem stepKeepsInvariant : Obligations.StepKeepsInvariant := fun _ _ hinv h => act_keeps_inv (popAgenda_inv hinv) h

/-! ### Sticky faults, fixed parameters, stores -/

theorem act_next_keeps_cfg {a : Action} {s t : State} (h : act a s = .next t) : t.cfg = s.cfg := by
  by_cases ha : a = .step
  · subst ha
    rcases doStep_cases s with ⟨_, e⟩ | ⟨_, _, e⟩ | ⟨_, _, e⟩
    · cases e.symm.trans h
    · cases e.symm.trans h
      rfl
    · exact exec_next_same (p := .cfg) (e.symm.trans h) (cfg_not_written _) (by decide)
  · exact act_next_keeps_of_ne_step ha h .cfg (by decide)

/-- Settles O54: a set `FAULT` means Halted, where nothing changes; no instruction and no other action writes the parameters. -/
theorem faultStickyConfigFixed : Obligations.FaultStickyConfigFixed := by
  intro s t hinv h
  refine ⟨fun hfault => ?_, (act_next_keeps_cfg h).trans s.popAgenda_cfg⟩
  have hhalted : s.popAgenda.run = .halted := s.popAgenda_run.trans (hinv.faultHalts hfault)
  rw [act_next_of_halted hhalted h, State.popAgenda_fault]

/-- Whatever writes a byte of memory is a `Step` that runs a store. -/
theorem act_next_writes_mem {a : Action} {s t : State} {c : Nat} (h : act a s = .next t)
    (hc : t.readMem c ≠ s.readMem c) :
    a = .step ∧ ∃ x, decodeWord s.fetchWord = .ldB x ∨ decodeWord s.fetchWord = .ldMemVx x := by
  by_cases ha : a = .step
  · subst ha
    rcases doStep_cases s with ⟨_, e⟩ | ⟨_, _, e⟩ | ⟨_, _, e⟩
    · cases e.symm.trans h
    · cases e.symm.trans h
      exact absurd rfl hc
    · refine ⟨rfl, store_of_mem_written ?_⟩
      by_contra hmem
      exact hc (exec_next_same (p := .mem) (e.symm.trans h) hmem (by decide) c)
  · exact absurd (act_next_keeps_of_ne_step ha h .mem (by decide) c) hc

/-- Settles O56: taking an action off the agenda writes no byte, so the action did. -/
theorem memoryWrittenOnlyByStores : Obligations.MemoryWrittenOnlyByStores := by
  intro s t a h hchanged
  have hwrites := act_next_writes_mem h (c := a) (by rw [State.readMem_popAgenda]; exact hchanged)
  rwa [State.fetchWord_popAgenda] at hwrites

end Sys2Proof.Machine
end
